-- ==== Sys2Proof/Word.lean ====
section
/-! DEFINITION. The word types of ERLE-BPC: the byte (R9), the 32-bit host-visible register (R8, `REGW`) and the
11-bit working register (R8, `POSW`). All values are unsigned (R9). -/

namespace Sys2Proof

/-- A byte: 8 bits, unsigned (R9). -/
abbrev Byte := BitVec 8

/-- A host-visible register: 32 bits (R8, R24 to R30). -/
abbrev Reg := BitVec 32

/-- A position register, `ROW`, `COL` or `N`: 11 bits (R8, R25). -/
abbrev Pos := BitVec 11

end Sys2Proof
end

