-- ==== Sys2Proof/Config.lean ====
section
/-! DEFINITION. The constants of R7 and R8 and the free values of R37 and R65. The spec leaves no parameter to the
implementation (R7, R8); the three `opaque` constants stand for values the spec says are unspecified, so that
whatever is proved holds for every choice of them. -/

namespace Sys2Proof.Config

/-- `W`: pixels in a row (R7). -/
@[simp] abbrev width : Nat := 1920

/-- `HGT`: rows in an image (R7). -/
@[simp] abbrev height : Nat := 1080

/-- `NCH`: bytes in a composite pixel (R7). -/
@[simp] abbrev channels : Nat := 3

/-- `MAXPLANES`: most planes one `COMPOSE` accepts (R7). -/
@[simp] abbrev maxPlanes : Nat := 24

/-- `HDR_LEN`: length of the header in bytes (R7). -/
@[simp] abbrev headerLength : Nat := 48

/-- `LEN_OFF`: offset of the total-length field (R7). -/
@[simp] abbrev lengthOffset : Nat := 8

/-- `ALIGN`: the total length is a multiple of this (R7). -/
@[simp] abbrev alignment : Nat := 4

/-- `SIG`: header bytes 0 to 3 (R7). -/
abbrev signature : List Byte := [0x53, 0x70, 0x6C, 0x64]

/-- `COMP_TYPE`: header byte 25 (R7). -/
abbrev compressionType : Byte := 0x02

/-- `BPP_MARK`: header byte 26 (R7). -/
abbrev bitsPerPixelMark : Byte := 0x01

/-- `CNT1_MAX`: largest run count that is encoded in one byte (R7). -/
@[simp] abbrev shortCountMax : Nat := 127

/-- `OUT_CAP`: capacity of the `OUT` store in bytes (R8). -/
@[simp] abbrev outCap : Nat := 8296612

/-- Extent of `PLANE` in bits (R21). -/
@[simp] abbrev planeSize : Nat := maxPlanes * height * width

/-- Extent of `FRAME` in bytes (R22). -/
@[simp] abbrev frameSize : Nat := height * width * channels

/-- The bit that the unwritten location `index` of a bit store reads as, under the filling named `gen`: any value,
fixed until the location is written or the store is made unspecified again (R37; log 3). -/
opaque unspecifiedBit (gen index : Nat) : Bool

/-- The byte that the unwritten location `index` of a byte store reads as, under the filling named `gen` (R37;
log 3). -/
opaque unspecifiedByte (gen index : Nat) : Byte

/-- The byte a host read of `FRAME` or `OUT` returns while the block is busy, for the draw numbered `draw`: any
value, independently for each read (R65, U3; log 4). -/
opaque busyReadByte (draw : Nat) : Byte

end Sys2Proof.Config
end

