-- ==== Sys2Proof/Machine/FieldPacker.lean ====
section
/-! DEFINITION. The two Field Packer functions and the little-endian forms built from them (R110 to R115). -/

namespace Sys2Proof.Machine

/-- The information of `FieldOverflow`: the value and the width it does not fit (R111, R200). -/
structure PackError where
  value : Int
  width : Nat
  deriving DecidableEq, Repr

/-- `toBits(value, width)`: exactly `width` bits, most significant first, or `FieldOverflow` (R111). -/
def toBits (value : Int) (width : Nat) : Except PackError (List Bool) :=
  if value < 0 ∨ (2 ^ width : Nat) ≤ value then .error ⟨value, width⟩
  else .ok ((List.range width).map fun j => value.toNat.testBit (width - 1 - j))

/-- The byte whose bit 7 is the first bit of the list (R112). -/
def byteOfBits (bits : List Bool) : Byte :=
  BitVec.ofNat 8 (bits.foldl (fun acc b => 2 * acc + b.toNat) 0)

/-- Split a bit string whose length is a multiple of 8 into bytes, first byte first (R112). -/
def splitBytes : List Bool → List Byte
  | a :: b :: c :: d :: e :: f :: g :: h :: rest => byteOfBits [a, b, c, d, e, f, g, h] :: splitBytes rest
  | _ => []

/-- `toBytes(bits)`: left-pad with zero bits to a multiple of 8, split most significant bit first, and reverse the
byte sequence (R112). -/
def toBytes (bits : List Bool) : List Byte :=
  (splitBytes (List.replicate ((8 - bits.length % 8) % 8) false ++ bits)).reverse

/-- A value packed over `width` bits: `toBytes(toBits(value, width))` (R113). -/
def pack (value width : Nat) : Except PackError (List Byte) :=
  match toBits value width with
  | .ok bits => .ok (toBytes bits)
  | .error e => .error e

/-- `LE16(v)` (R114). -/
def le16 (v : Nat) : Except PackError (List Byte) := pack v 16

/-- `LE32(v)` (R114). -/
def le32 (v : Nat) : Except PackError (List Byte) := pack v 32

end Sys2Proof.Machine
end

