-- ==== Sys2Proof/Syntax.lean ====
section
/-! DEFINITION. The instruction-set analogue of R3: one constructor for each row of spec/opcode_table.json. The rows
are the header and the tokens of the output stream (R80, R82) and the commands a host writes to `CMD` (R97, R98). -/

namespace Sys2Proof

/-- A composite pixel: its three channel bytes in index order (R12, R84). Two pixels are equal when all three bytes
are (R132). -/
structure Pixel where
  ch0 : Byte
  ch1 : Byte
  ch2 : Byte
  deriving DecidableEq, Repr, Inhabited

/-- One row of the opcode table with its operands. Run counts are numbers of pixels (R82); the payload of a literal
run is its list of pixels, whose length is the count (R85). -/
inductive Instr where
  /-- `HDR`: the 48-byte header with its length field (R80). -/
  | hdr (len : Reg)
  /-- `VREP.S`: vertical repeat, one-byte count (R82). -/
  | vrepS (n : Nat)
  /-- `VREP.L`: vertical repeat, two-byte count (R82). -/
  | vrepL (n : Nat)
  /-- `PIX`: single literal pixel (R82, R89). -/
  | pix (p : Pixel)
  /-- `HREP.S`: horizontal repeat, one-byte count (R82). -/
  | hrepS (n : Nat) (p : Pixel)
  /-- `HREP.L`: horizontal repeat, two-byte count (R82). -/
  | hrepL (n : Nat) (p : Pixel)
  /-- `LITS.S`: literal run, one-byte count (R82, R85). -/
  | litsS (ps : List Pixel)
  /-- `LITS.L`: literal run, two-byte count (R82, R85). -/
  | litsL (ps : List Pixel)
  /-- `EOL`: end of row (R90). -/
  | eol
  /-- `EOI`: end of image (R91). -/
  | eoi
  /-- `PAD`: padding (R92, R96). -/
  | pad
  /-- Command `NOP` (R97). -/
  | nop
  /-- Command `COMPOSE` (R97). -/
  | compose
  /-- Command `ENCODE` (R97). -/
  | encode
  /-- A reserved command value (R98). -/
  | reserved (v : Reg)
  deriving DecidableEq, Repr

end Sys2Proof
end

