-- ==== Sys2Proof/Machine/State.lean ====
section
/-! DEFINITION. Everything the spec gives the machine, as plain data (R20 to R37), the state after reset (R36), and the
reasons a step of the model can stop. The spec's own five faults are no stops: each is a next state in `P_FAULT`
(R205). -/

namespace Sys2Proof.Machine

/-- A store of the block: the written locations as (index, value) pairs with strictly rising indices, and the name of
the free filling its unwritten locations read as (R37; log 3, log 12). For the byte stores `cells` is a list of
`Host.Cell`. -/
structure Memory (α : Type) where
  gen   : Nat
  cells : List (Nat × α)
  deriving DecidableEq, Repr

/-- `PHASE` (R27). -/
inductive Phase where
  | idle
  | compose
  | header
  | body
  | eoi
  | pad
  | patch
  | fault
  deriving DecidableEq, Repr

/-- `STATUS`, by its fields (R29; log 21): bit 0 `BUSY`, bit 1 `FAULT`, bit 2 `OUT_VALID`, bits 7:4 `FAULT_CODE`. The
other bits read 0, so they are no data. -/
structure Status where
  busy      : Bool
  fault     : Bool
  outValid  : Bool
  faultCode : BitVec 4
  deriving DecidableEq, Repr

/-- A host transaction of R186. Registers are named by number (R31), store locations by their indices (R51, R52,
R53). -/
inductive HostMove where
  | writePlane (p r c : Nat) (bit : Bool)
  | readPlane (p r c : Nat)
  | writeFrame (r c k : Nat) (byte : Byte)
  | readFrame (r c k : Nat)
  | writeOut (a : Nat) (byte : Byte)
  | readOut (a : Nat)
  | writeReg (number : Nat) (value : Reg)
  | readReg (number : Nat)
  | assertReset
  deriving DecidableEq, Repr

/-- Who moves next: the block, by its enabled step if it has one, or the host, by one transaction (R20, R40, R208). -/
inductive Turn where
  | block
  | host (m : HostMove)
  deriving DecidableEq, Repr

/-- The machine. `CMD` holds no value (R28) and has no field. The last four fields named here are the model's own:
`turns` (log 1), `hostResult` (log 2) and `fresh` with the stores' `gen` (log 3, log 4). -/
structure State where
  /-- The `PLANE` store (R21). -/
  plane      : Memory Bool
  /-- The `FRAME` store (R22). -/
  frame      : Memory Byte
  /-- The `OUT` store (R23). -/
  out        : Memory Byte
  /-- Register `NPLANES` (R24). -/
  nplanes    : Reg
  /-- Register `STATUS` (R29). -/
  status     : Status
  /-- Register `LENGTH` (R30). -/
  length     : Reg
  /-- `PHASE` (R27). -/
  phase      : Phase
  /-- `ROW` (R25, R26). -/
  row        : Pos
  /-- `COL` (R25, R26). -/
  col        : Pos
  /-- `N` (R25). -/
  n          : Pos
  /-- `BYTECOUNT` (R25). -/
  byteCount  : Reg
  /-- The coming moves, the next one first (log 1). -/
  turns      : List Turn
  /-- What the latest host transaction returned to the host, none if it returned nothing (R185; log 2). -/
  hostResult : Option Reg
  /-- The name of the next free value (log 3, log 4). -/
  fresh      : Nat
  deriving DecidableEq, Repr

/-- Why the model stops where the spec gives no location or no step. None of these is one of the spec's faults. -/
inductive Fault where
  /-- Raised by every step that appends to `OUT` when a byte would fall at or above `OUT_CAP`, an address that does
  not exist (R23, R59). Safe: no state that keeps the scan invariant raises it (R151; log 8). -/
  | outOverflow
  /-- Raised by a block step in `P_BODY` whose scan position is outside `FRAME`, so that no step of R136 or R142 is
  enabled. Safe: no state that keeps the scan invariant raises it (R59, R150; log 8). -/
  | scanOutsideFrame
  deriving DecidableEq, Repr

/-- Why the model has no move. -/
inductive Refusal where
  /-- Raised by `exec`'s arms for an instruction that has no meaning yet. Safe. -/
  | notModelled (mnemonic : String)
  /-- Raised by a token's meaning in a state whose enabled step puts another token, or none, into the stream: the
  block has no such step there (R40, R136). Safe (log 6). -/
  | tokenNotSelected
  /-- Raised by the meaning of a reserved command whose value is 0, 1 or 2, which is no reserved value (R98). Safe
  (log 17). -/
  | notReservedCode
  /-- Raised by a host transaction with an index outside the store's extent (R59). Safe. -/
  | indexOutsideStore
  /-- Raised by a host write of `OUT` (R186: no such transaction). Safe. -/
  | outNotWritable
  /-- Raised by a host read of `PLANE` (R186: no such transaction). Safe. -/
  | planeNotReadable
  /-- Raised by a host transaction naming a register number above 3 (R31). Safe. -/
  | noSuchRegister
  deriving DecidableEq, Repr

/-- The state after reset (R36). The stores hold nothing written (R37); the names of their free fillings and the
model's own fields are this model's (log 16). -/
def State.reset : State where
  plane      := { gen := 0, cells := [] }
  frame      := { gen := 1, cells := [] }
  out        := { gen := 2, cells := [] }
  nplanes    := 0
  status     := { busy := false, fault := false, outValid := false, faultCode := 0 }
  length     := 0
  phase      := .idle
  row        := 0
  col        := 0
  n          := 0
  byteCount  := 0
  turns      := []
  hostResult := none
  fresh      := 3

end Sys2Proof.Machine
end

