-- ==== Sys2Proof/Machine/Ops.lean ====
section
/-! DEFINITION. The named operations over stores and registers: reading and writing a store, the indices of R51 to
R53, `emit` and `MemWrite` (R10), entering the fault state (R205, R187), reset (R220), and the ownership gate every
host write passes (R65, R186). There is no return from a fault (R207). -/

namespace Sys2Proof.Machine

/-! ## Stores -/

/-- The value written at an index, if any. -/
def lookupCell {α : Type} (index : Nat) : List (Nat × α) → Option α
  | [] => none
  | (b, v) :: rest => if b = index then some v else lookupCell index rest

/-- The list with a value written at an index: indices that rise strictly keep rising. -/
def insertCell {α : Type} (index : Nat) (value : α) : List (Nat × α) → List (Nat × α)
  | [] => [(index, value)]
  | (b, v) :: rest =>
    if index < b then (index, value) :: (b, v) :: rest
    else if index = b then (index, value) :: rest
    else (b, v) :: insertCell index value rest

/-- The indices of a list rise strictly. -/
def risingCells {α : Type} : List (Nat × α) → Bool
  | [] => true
  | [_] => true
  | (a, _) :: (b, w) :: rest => decide (a < b) && risingCells ((b, w) :: rest)

/-- The canonical form of a store: strictly rising indices. An unlisted location holds no written value, so no entry
can equal what it holds (log 3). -/
def Memory.wf {α : Type} (m : Memory α) : Bool := risingCells m.cells

/-- Every written location lies in an extent. -/
def Memory.within {α : Type} (size : Nat) (m : Memory α) : Bool := m.cells.all fun cell => decide (cell.1 < size)

/-- Read a location: the value written there, or the free value of its filling (R37). -/
def Memory.read {α : Type} (free : Nat → Nat → α) (m : Memory α) (index : Nat) : α :=
  match lookupCell index m.cells with
  | some v => v
  | none => free m.gen index

/-- Write a location. -/
def Memory.write {α : Type} (m : Memory α) (index : Nat) (value : α) : Memory α :=
  { m with cells := insertCell index value m.cells }

/-- `MemWrite(a, n, v)`: write the values one after the other from an index on (R10). -/
def Memory.writeAll {α : Type} (m : Memory α) (index : Nat) : List α → Memory α
  | [] => m
  | v :: rest => (m.write index v).writeAll (index + 1) rest

/-- The same store with every location of an extent written (R126). -/
def Memory.fill {α : Type} (m : Memory α) (size : Nat) (f : Nat → α) : Memory α :=
  { m with cells := (List.range size).map fun index => (index, f index) }

/-- A store whose every location is unspecified, under a free filling of its own (R37, R187). -/
def Memory.unspecified {α : Type} (gen : Nat) : Memory α := { gen := gen, cells := [] }

/-! ## Indices -/

/-- The index of `PLANE[p][r][c]` (R51; log 12). -/
def planeIndex (p r c : Nat) : Nat := (p * Config.height + r) * Config.width + c

/-- The index of `FRAME[r][c][k]`, row-major (R52; log 12). -/
def frameIndex (r c k : Nat) : Nat := (r * Config.width + c) * Config.channels + k

/-- `(p, r, c)` is an index of `PLANE` (R21). -/
def planeInside (p r c : Nat) : Bool :=
  decide (p < Config.maxPlanes) && decide (r < Config.height) && decide (c < Config.width)

/-- `(r, c, k)` is an index of `FRAME` (R22). -/
def frameInside (r c k : Nat) : Bool :=
  decide (r < Config.height) && decide (c < Config.width) && decide (k < Config.channels)

/-- `PLANE[p][r][c]`. -/
def State.planeBit (s : State) (p r c : Nat) : Bool := s.plane.read Config.unspecifiedBit (planeIndex p r c)

/-- `FRAME[r][c][k]`. -/
def State.frameByte (s : State) (r c k : Nat) : Byte := s.frame.read Config.unspecifiedByte (frameIndex r c k)

/-- `OUT[a]`. -/
def State.outByte (s : State) (a : Nat) : Byte := s.out.read Config.unspecifiedByte a

/-- `px(r, c)` (R10). -/
def State.px (s : State) (r c : Nat) : Pixel := ⟨s.frameByte r c 0, s.frameByte r c 1, s.frameByte r c 2⟩

/-! ## Phases -/

/-- The phases in which `BUSY` is 1 (R29). -/
def Phase.isBusy : Phase → Bool
  | .idle => false
  | .compose => true
  | .header => true
  | .body => true
  | .eoi => true
  | .pad => true
  | .patch => true
  | .fault => false

/-- The phases of a running `ENCODE` (R27). -/
def Phase.isEncode : Phase → Bool
  | .idle => false
  | .compose => false
  | .header => true
  | .body => true
  | .eoi => true
  | .pad => true
  | .patch => true
  | .fault => false

/-! ## Faults -/

/-- The five faults with the information `raise` gives (R200). The hardware keeps no fault-information register, so
the information is dropped by the fault entry. -/
inductive FaultCause where
  | tooManyPlanes (supplied : Reg)
  | codecStallGuard (row col : Pos)
  | fieldOverflow (value : Int) (width : Nat)
  | illegalCommand (value : Reg)
  | busyViolation
  deriving DecidableEq, Repr

/-- The code reported in `STATUS.FAULT_CODE` (R200). -/
def FaultCause.code : FaultCause → BitVec 4
  | .tooManyPlanes _ => 1
  | .codecStallGuard _ _ => 2
  | .fieldOverflow _ _ => 3
  | .illegalCommand _ => 4
  | .busyViolation => 5

/-- What a fault leaves in the stores (R187): `OUT` is unspecified after a fault raised during `ENCODE`, `FRAME` after
a `BusyViolation` in `P_COMPOSE`; nothing else changes (log 5). -/
def State.spoilTarget (s : State) (f : FaultCause) : State :=
  if s.phase.isEncode then { s with out := Memory.unspecified s.fresh, fresh := s.fresh + 1 }
  else if s.phase = .compose ∧ f = .busyViolation then
    { s with frame := Memory.unspecified s.fresh, fresh := s.fresh + 1 }
  else s

/-- `raise <Fault>(info)`: the fault entry (R205), with the store contents of R187. -/
def State.takeFault (s : State) (f : FaultCause) : State :=
  { s.spoilTarget f with
    phase  := .fault
    status := { busy := false, fault := true, outValid := false, faultCode := f.code }
    length := 0 }

/-- Reset (R220): every register at its reset value (R36), the three stores unspecified (R37). The coming moves are
the host's and stay (log 15). -/
def State.resetBlock (s : State) : State :=
  { State.reset with
    plane := Memory.unspecified s.fresh
    frame := Memory.unspecified (s.fresh + 1)
    out   := Memory.unspecified (s.fresh + 2)
    turns := s.turns
    fresh := s.fresh + 3 }

/-! ## Output -/

/-- The state after `emit(bytes)` (R10). -/
def State.append (s : State) (bytes : List Byte) : State :=
  { s with
    out       := s.out.writeAll s.byteCount.toNat bytes
    byteCount := s.byteCount + BitVec.ofNat 32 bytes.length }

/-- `emit(bytes)`, then the rest of the step. A byte at or above `OUT_CAP` has no location: the model stops (R23,
R59; log 8). -/
def emitThen (bytes : List Byte) (after : State → State) (s : State) : Host.Outcome State Fault Refusal :=
  if s.byteCount.toNat + bytes.length ≤ Config.outCap then .next (after (s.append bytes))
  else .fault .outOverflow

/-! ## Host ownership -/

/-- A host write of `CMD`, `NPLANES`, `PLANE` or `FRAME` (R65, R180, R186): ignored in `P_FAULT`, `BusyViolation` while
busy, else its effect. -/
def hostWrite (effect : State → State) (s : State) : Host.Outcome State Fault Refusal :=
  if s.phase = .fault then .next s
  else if s.status.busy then .next (s.takeFault .busyViolation)
  else .next (effect s)

/-- The value a host transaction returns to the host (R185; log 2). -/
def State.returning (s : State) (v : Reg) : State := { s with hostResult := some v }

/-- A host read of a byte of `FRAME` or `OUT`: the byte, or any value while busy (R65, R186; log 4). -/
def hostReadByte (byte : Byte) (s : State) : Host.Outcome State Fault Refusal :=
  if s.status.busy then
    .next { (s.returning ((Config.busyReadByte s.fresh).setWidth 32)) with fresh := s.fresh + 1 }
  else .next (s.returning (byte.setWidth 32))

end Sys2Proof.Machine
end

