-- ==== Sys2Proof/Machine/Flags.lean ====
section
/-! DEFINITION. The stored flags and the `STATUS` word (R29, R32). No operation writes a flag as a side effect of
arithmetic (R32); the flags change at the start of an operation (R181, R182), at its completion (R126, R146) and by a
fault (R205, in Ops). -/

namespace Sys2Proof.Machine

/-- The 32-bit value a read of `STATUS` returns (R29): bit 0 `BUSY`, bit 1 `FAULT`, bit 2 `OUT_VALID`, bits 7:4
`FAULT_CODE`, every other bit 0. -/
def Status.word (st : Status) : Reg :=
  BitVec.ofNat 32
    (st.busy.toNat + 2 * st.fault.toNat + 4 * st.outValid.toNat + 16 * st.faultCode.toNat)

/-- Start of `COMPOSE` (R181). -/
def State.startCompose (s : State) : State :=
  { s with phase := .compose, status := { s.status with busy := true } }

/-- Start of `ENCODE` (R182). -/
def State.startEncode (s : State) : State :=
  { s with phase := .header, status := { s.status with busy := true, outValid := false }, length := 0 }

/-- Completion of `COMPOSE` (R126): `OUT_VALID` and `LENGTH` keep their values (R38). -/
def State.finishCompose (s : State) : State :=
  { s with phase := .idle, status := { s.status with busy := false } }

/-- Completion of `ENCODE` (R146). -/
def State.finishEncode (s : State) : State :=
  { s with
    phase  := .idle
    status := { s.status with busy := false, outValid := true }
    length := s.byteCount }

end Sys2Proof.Machine
end

