-- ==== Sys2Proof/Machine/Compositor.lean ====
section
/-! DEFINITION. The bit-plane compositor (R120 to R128): the packing function and the compose step. The command that
starts it is in Commands. -/

namespace Sys2Proof.Machine

/-- `bit(i)` of R122: plane `i` at a pixel, 0 for a plane that is not supplied (R123). -/
def State.suppliedBit (s : State) (r c i : Nat) : Bool :=
  if i < s.nplanes.toNat then s.planeBit i r c else false

/-- Channel `k` of a composed pixel: the sum over `i` in 0..7 of `bit(8 (2 - k) + i) * 2^i` (R122). -/
def State.composedByte (s : State) (r c k : Nat) : Byte :=
  BitVec.ofNat 8 ((List.range 8).foldl (fun sum i => sum + (s.suppliedBit r c (8 * (2 - k) + i)).toNat * 2 ^ i) 0)

/-- The composed byte at a linear index of `FRAME` (R52, R122). -/
def State.composedAt (s : State) (index : Nat) : Byte :=
  s.composedByte (index / Config.channels / Config.width) (index / Config.channels % Config.width)
    (index % Config.channels)

/-- The compose step, enabled in `P_COMPOSE` (R126): the count is tested before any store access (R121). -/
def composeStep (s : State) : Host.Outcome State Fault Refusal :=
  if Config.maxPlanes < s.nplanes.toNat then .next (s.takeFault (.tooManyPlanes s.nplanes))
  else .next ({ s with frame := s.frame.fill Config.frameSize s.composedAt }).finishCompose

end Sys2Proof.Machine
end

