-- ==== Sys2Proof/Machine/Commands.lean ====
section
/-! DEFINITION. The commands: what a host write of `CMD` does (R180 to R184), one meaning for each command row. The
operation a command starts runs afterwards as steps of the block (R180). -/

namespace Sys2Proof.Machine

/-- `NOP` (R183). -/
def execNop (s : State) : Host.Outcome State Fault Refusal := hostWrite (fun t => t) s

/-- `COMPOSE`: the start of the operation (R181). -/
def execCompose (s : State) : Host.Outcome State Fault Refusal := hostWrite State.startCompose s

/-- `ENCODE`: the start of the operation (R182). -/
def execEncode (s : State) : Host.Outcome State Fault Refusal := hostWrite State.startEncode s

/-- A reserved command value (R184, R203): `IllegalCommand`. The values 0, 1 and 2 are not reserved (R98; log 17). -/
def execReserved (v : Reg) (s : State) : Host.Outcome State Fault Refusal :=
  if 3 ≤ v.toNat then hostWrite (fun t => t.takeFault (.illegalCommand v)) s else .refused .notReservedCode

/-- What an accepted write of a value to `CMD` does, by its value (R180). -/
def State.command (s : State) (v : Reg) : State :=
  if v = 0x00000000 then s
  else if v = 0x00000001 then s.startCompose
  else if v = 0x00000002 then s.startEncode
  else s.takeFault (.illegalCommand v)

end Sys2Proof.Machine
end

