-- ==== Sys2Proof/WellFormed.lean ====
section
/-! DEFINITION. Which operands each row admits: the `n` ranges of R82, the length field of R80, the reserved command
values of R98. Whether a token may stand at a given place of the stream (the row bounds of R93) depends on the scan
position and is not syntax. -/

namespace Sys2Proof

/-- The operands of an instruction lie in the ranges the encodings give them (R80, R82, R86, R98). -/
def Instr.wellFormed : Instr → Bool
  | .hdr len => decide (len.toNat % Config.alignment = 0)
  | .vrepS n => decide (1 ≤ n ∧ n ≤ Config.shortCountMax)
  | .vrepL n => decide (Config.shortCountMax < n ∧ n ≤ Config.width)
  | .pix _ => true
  | .hrepS n _ => decide (2 ≤ n ∧ n ≤ Config.shortCountMax)
  | .hrepL n _ => decide (Config.shortCountMax < n ∧ n ≤ Config.width)
  | .litsS ps => decide (2 ≤ ps.length ∧ ps.length ≤ Config.shortCountMax)
  | .litsL ps => decide (Config.shortCountMax < ps.length ∧ ps.length ≤ Config.width)
  | .eol => true
  | .eoi => true
  | .pad => true
  | .nop => true
  | .compose => true
  | .encode => true
  | .reserved v => decide (3 ≤ v.toNat)

/-- `Instr.wellFormed` as a proposition. -/
abbrev Instr.WellFormed (i : Instr) : Prop := i.wellFormed = true

end Sys2Proof
end

