-- ==== Sys2Proof/Decode.lean ====
section
/-! DEFINITION. The encodings of spec file 30, both ways. A stream is read from its bytes (R80 to R94) and a command
from the 32-bit value written to `CMD` (R97, R98). Every rejected form is rejected by name (R93). The encoder is
written from the same tables, after the decoder. -/

namespace Sys2Proof

/-- Where in the stream a token is read: the header stands at offset 0, padding stands after `EOI`, every other token
between them (R81). The byte `00` is `PAD` only in the tail (R92). -/
inductive StreamPart where
  | header
  | body
  | tail
  deriving DecidableEq, Repr

/-- An instruction as it is encoded: the bytes of a token in its part of the stream, or the value of a command. -/
inductive Encoding where
  | stream (part : StreamPart) (bytes : List Byte)
  | command (value : Reg)
  deriving DecidableEq, Repr

/-- Why a byte sequence is no token (R93, R172, R173). -/
inductive DecodeError where
  /-- The bytes end inside the token. -/
  | truncated
  /-- Header bytes 0 to 3 are not the signature (R80). -/
  | notSignature
  /-- Header bytes 4 to 7 are not the width and the height (R80). -/
  | notImageSize
  /-- The header's length field is no multiple of 4 (R58, R80). -/
  | lengthNotAligned
  /-- A header byte at 12 to 47 is not the constant (R80, R100). -/
  | notHeaderConstant
  /-- A two-byte count whose high byte is zero (R87, R93). -/
  | longCountBelow128
  /-- A count above 1920 (R93). -/
  | countAboveWidth
  /-- A byte other than `00` after `EOI` (R92, R93). -/
  | paddingNotZero
  deriving DecidableEq, Repr

/-- Read a run-count operand: one byte when bit 7 is 0, else two, low seven bits first; a long form with a zero high
byte is not canonical and is rejected (R87, R93, R173). -/
def readCount : List Byte → Except DecodeError (Nat × List Byte)
  | [] => .error .truncated
  | x :: rest =>
    if x.toNat < 128 then .ok (x.toNat, rest)
    else
      match rest with
      | [] => .error .truncated
      | m :: rest' =>
        if m.toNat = 0 then .error .longCountBelow128
        else .ok ((x.toNat &&& 0x7F) ||| (m.toNat <<< 7), rest')

/-- Read a colour operand: channels 0, 1, 2 in that order (R55, R84). -/
def readPixel : List Byte → Except DecodeError (Pixel × List Byte)
  | a :: b :: c :: rest => .ok (⟨a, b, c⟩, rest)
  | _ => .error .truncated

/-- Read a literal payload of `n` colour operands, left pixel first (R85). -/
def readPixels : Nat → List Byte → Except DecodeError (List Pixel × List Byte)
  | 0, bytes => .ok ([], bytes)
  | n + 1, bytes =>
    match readPixel bytes with
    | .error e => .error e
    | .ok (p, rest) =>
      match readPixels n rest with
      | .error e => .error e
      | .ok (ps, rest') => .ok (p :: ps, rest')

/-- The vertical-repeat token of a count: `VREP.S` up to 127, `VREP.L` above (R82, R86). -/
def vrepToken (n : Nat) : Instr := if n ≤ Config.shortCountMax then .vrepS n else .vrepL n

/-- The repeat token of a count: the count 1 is `PIX` (R89). -/
def hrepToken (n : Nat) (p : Pixel) : Instr :=
  if n = 1 then .pix p else if n ≤ Config.shortCountMax then .hrepS n p else .hrepL n p

/-- The literal-run token of a list of pixels (R82, R85). -/
def litsToken (ps : List Pixel) : Instr :=
  if ps.length ≤ Config.shortCountMax then .litsS ps else .litsL ps

/-- A repeat token: the count, then the colour (R83, R89). -/
def decodeRepeat (bytes : List Byte) : Except DecodeError (Instr × List Byte) :=
  match readCount bytes with
  | .error e => .error e
  | .ok (n, rest) =>
    if Config.width < n then .error .countAboveWidth
    else
      match readPixel rest with
      | .error e => .error e
      | .ok (p, rest') => .ok (hrepToken n p, rest')

/-- What follows `00 01`: `00` ends `EOI`, anything else begins the count of a vertical repeat (R83). -/
def decodeVertical : List Byte → Except DecodeError (Instr × List Byte)
  | [] => .error .truncated
  | y :: rest =>
    if y = 0x00 then .ok (.eoi, rest)
    else
      match readCount (y :: rest) with
      | .error e => .error e
      | .ok (n, rest') => if Config.width < n then .error .countAboveWidth else .ok (vrepToken n, rest')

/-- A literal run after its escape: the count, then the payload (R83, R85). -/
def decodeLiterals (bytes : List Byte) : Except DecodeError (Instr × List Byte) :=
  match readCount bytes with
  | .error e => .error e
  | .ok (n, rest) =>
    if Config.width < n then .error .countAboveWidth
    else
      match readPixels n rest with
      | .error e => .error e
      | .ok (ps, rest') => .ok (litsToken ps, rest')

/-- What follows the escape `00`: `00` ends `EOL`, `01` begins `VREP` or `EOI`, anything else begins the count of a
literal run (R83). -/
def decodeEscape : List Byte → Except DecodeError (Instr × List Byte)
  | [] => .error .truncated
  | x :: rest =>
    if x = 0x00 then .ok (.eol, rest)
    else if x = 0x01 then decodeVertical rest
    else decodeLiterals (x :: rest)

/-- One token of the body, by its leading bytes (R83). -/
def decodeBody : List Byte → Except DecodeError (Instr × List Byte)
  | [] => .error .truncated
  | b :: rest => if b = 0x00 then decodeEscape rest else decodeRepeat (b :: rest)

/-- The number whose little-endian bytes these are (R57). -/
def numberOfBytes : List Byte → Nat
  | [] => 0
  | b :: rest => b.toNat + 256 * numberOfBytes rest

/-- Header bytes 12 to 47: eight `FF`, four zeros, zero, the two markers, 21 zeros (R80). -/
def headerConstants : List Byte :=
  List.replicate 8 0xFF ++ List.replicate 4 0x00 ++
    [0x00, Config.compressionType, Config.bitsPerPixelMark] ++ List.replicate 21 0x00

/-- The header at offset 0 (R80, R172). -/
def decodeHeader (bytes : List Byte) : Except DecodeError (Instr × List Byte) :=
  if bytes.length < Config.headerLength then .error .truncated
  else if bytes.take 4 ≠ Config.signature then .error .notSignature
  else if (bytes.drop 4).take 4 ≠ [0x80, 0x07, 0x38, 0x04] then .error .notImageSize
  else if (bytes.drop 12).take 36 ≠ headerConstants then .error .notHeaderConstant
  else if numberOfBytes ((bytes.drop 8).take 4) % Config.alignment ≠ 0 then .error .lengthNotAligned
  else .ok (.hdr (BitVec.ofNat 32 (numberOfBytes ((bytes.drop 8).take 4))), bytes.drop Config.headerLength)

/-- One byte after `EOI` (R92). -/
def decodeTail : List Byte → Except DecodeError (Instr × List Byte)
  | [] => .error .truncated
  | b :: rest => if b = 0x00 then .ok (.pad, rest) else .error .paddingNotZero

/-- One token of the stream, with the bytes that follow it. -/
def decodeStream : StreamPart → List Byte → Except DecodeError (Instr × List Byte)
  | .header => decodeHeader
  | .body => decodeBody
  | .tail => decodeTail

/-- The command a 32-bit value is: the whole value is the code (R97, R98). -/
def decodeCommand (v : Reg) : Instr :=
  if v = 0x00000000 then .nop
  else if v = 0x00000001 then .compose
  else if v = 0x00000002 then .encode
  else .reserved v

/-- The instruction an encoding holds, and the bytes after it: total on any bytes and any value. -/
def decode : Encoding → Except DecodeError (Instr × List Byte)
  | .stream part bytes => decodeStream part bytes
  | .command v => .ok (decodeCommand v, [])

/-- `cnt(n)`: one byte below 128, else the low seven bits with bit 7 set and then the high bits (R86). -/
def countBytes (n : Nat) : List Byte :=
  if n < 128 then [BitVec.ofNat 8 n]
  else [BitVec.ofNat 8 ((n &&& 0x7F) ||| 0x80), BitVec.ofNat 8 (n >>> 7)]

/-- A pixel's colour bytes in channel index order (R55, R84). -/
def pixelBytes (p : Pixel) : List Byte := [p.ch0, p.ch1, p.ch2]

/-- The 48 header bytes with the length field `len`, its integers packed by `LE16` and `LE32` (R80, R114, R131);
`FieldOverflow` where one of them does not fit (R111). -/
def headerBytes (len : Nat) : Except Machine.PackError (List Byte) :=
  match Machine.le16 Config.width, Machine.le16 Config.height, Machine.le32 len with
  | .ok w, .ok h, .ok l => .ok (Config.signature ++ w ++ h ++ l ++ headerConstants)
  | .error e, _, _ => .error e
  | _, .error e, _ => .error e
  | _, _, .error e => .error e

/-- The bytes of a token (R80, R82); a command has none. -/
def tokenBytes : Instr → List Byte
  | .hdr len =>
    match headerBytes len.toNat with
    | .ok bytes => bytes
    | .error _ => []
  | .vrepS n => [0x00, 0x01] ++ countBytes n
  | .vrepL n => [0x00, 0x01] ++ countBytes n
  | .pix p => [0x01] ++ pixelBytes p
  | .hrepS n p => countBytes n ++ pixelBytes p
  | .hrepL n p => countBytes n ++ pixelBytes p
  | .litsS ps => [0x00] ++ countBytes ps.length ++ ps.flatMap pixelBytes
  | .litsL ps => [0x00] ++ countBytes ps.length ++ ps.flatMap pixelBytes
  | .eol => [0x00, 0x00]
  | .eoi => [0x00, 0x01, 0x00]
  | .pad => [0x00]
  | .nop => []
  | .compose => []
  | .encode => []
  | .reserved _ => []

/-- The encoding of an instruction (R80, R82, R97, R98). -/
def encode : Instr → Encoding
  | .hdr len => .stream .header (tokenBytes (.hdr len))
  | .vrepS n => .stream .body (tokenBytes (.vrepS n))
  | .vrepL n => .stream .body (tokenBytes (.vrepL n))
  | .pix p => .stream .body (tokenBytes (.pix p))
  | .hrepS n p => .stream .body (tokenBytes (.hrepS n p))
  | .hrepL n p => .stream .body (tokenBytes (.hrepL n p))
  | .litsS ps => .stream .body (tokenBytes (.litsS ps))
  | .litsL ps => .stream .body (tokenBytes (.litsL ps))
  | .eol => .stream .body (tokenBytes .eol)
  | .eoi => .stream .body (tokenBytes .eoi)
  | .pad => .stream .tail (tokenBytes .pad)
  | .nop => .command 0x00000000
  | .compose => .command 0x00000001
  | .encode => .command 0x00000002
  | .reserved v => .command v

/-- The `count` bytes of a number, most significant first: how spec/opcode_table.json numbers a token's bits, first
stream byte leftmost (log 10). -/
def bytesOfWord (count w : Nat) : List Byte :=
  (List.range count).map fun j => BitVec.ofNat 8 (w >>> (8 * (count - 1 - j)))

/-- A token read in one part of the stream from the `count` bytes of `w` and zeros after them, if the token is at
least `count` bytes long. -/
def decodeWordIn (part : StreamPart) (count w : Nat) : Option Instr :=
  match decodeStream part (bytesOfWord count w ++ List.replicate 5763 0x00) with
  | .ok (i, _) => if count ≤ (tokenBytes i).length then some i else none
  | .error _ => none

/-- The instruction read from a word numbered as spec/opcode_table.json numbers it (log 10). A 32-bit word is a token
where it is the whole of a four-byte token, and else the value of a command; the one-byte word 0 is `PAD`; a 48-byte
word is a header. -/
def decodeTableWord (nbits w : Nat) : Option Instr :=
  if nbits = 32 then
    match decodeWordIn .body 4 w with
    | some i => if (tokenBytes i).length = 4 then some i else some (decodeCommand (BitVec.ofNat 32 w))
    | none => some (decodeCommand (BitVec.ofNat 32 w))
  else if nbits = 8 * Config.headerLength then decodeWordIn .header Config.headerLength w
  else if nbits = 8 ∧ w = 0 then decodeWordIn .tail 1 w
  else decodeWordIn .body (nbits / 8) w

end Sys2Proof
end

