-- ==== Sys2Proof/Machine/Operands.lean ====
section
/-! DEFINITION. What a body step reads from `FRAME`: the predicates `V`, `H`, `Lit` (R133 to R135), the extents of the
runs (R137, R138, R140) and the selection of the token (R136). All are functions of an image, a row and a column;
none is state (R32). -/

namespace Sys2Proof.Machine

/-- The pixels of a frame, by row and column. -/
abbrev Image := Nat → Nat → Pixel

/-- `V(r, k)`: the pixel equals the pixel directly above; false on row 0 and beyond the row end (R133). -/
def vertical (F : Image) (r k : Nat) : Bool :=
  decide (0 < r) && decide (k ≤ 1919) && decide (F r k = F (r - 1) k)

/-- `H(r, k)`: the pixel equals the next pixel to the right; false at the last column and beyond (R134). -/
def horizontal (F : Image) (r k : Nat) : Bool :=
  decide (k + 1 ≤ 1919) && decide (F r k = F r (k + 1))

/-- `Lit(r, k)`: the pixel starts neither repeat (R135). -/
def literal (F : Image) (r k : Nat) : Bool :=
  decide (k ≤ 1919) && !vertical F r k && !horizontal F r k

/-- The largest `m` up to a limit such that a predicate holds on the `m` columns from `k` on. -/
def extent (p : Nat → Bool) : Nat → Nat → Nat
  | 0, _ => 0
  | limit + 1, k => if p k then extent p limit (k + 1) + 1 else 0

/-- The count of a vertical repeat at `(r, c)` (R137). -/
def verticalCount (F : Image) (r c : Nat) : Nat := extent (vertical F r) (Config.width - c) c

/-- The count of a horizontal repeat at `(r, c)`: the pixels from `c` on that equal the one at `c` (R138). -/
def horizontalCount (F : Image) (r c : Nat) : Nat :=
  extent (fun k => decide (F r k = F r c)) (Config.width - c) c

/-- The count of a literal run at `(r, c)` (R140). -/
def literalCount (F : Image) (r c : Nat) : Nat := extent (literal F r) (Config.width - c) c

/-- The pixels of columns `c` to `c + n - 1`, in that order (R140). -/
def pixelsFrom (F : Image) (r c n : Nat) : List Pixel := (List.range n).map fun j => F r (c + j)

/-- The token the body step at `(r, c)` emits: the first of the four primitives whose condition holds (R136). -/
def selectToken (F : Image) (r c : Nat) : Instr :=
  if vertical F r c then vrepToken (verticalCount F r c)
  else if horizontal F r c then hrepToken (horizontalCount F r c) (F r c)
  else if !literal F r (c + 1) then .pix (F r c)
  else litsToken (pixelsFrom F r c (literalCount F r c))

/-- The number of pixels a token stands for (R82). -/
def pixelCount : Instr → Nat
  | .hdr _ => 0
  | .vrepS n => n
  | .vrepL n => n
  | .pix _ => 1
  | .hrepS n _ => n
  | .hrepL n _ => n
  | .litsS ps => ps.length
  | .litsL ps => ps.length
  | .eol => 0
  | .eoi => 0
  | .pad => 0
  | .nop => 0
  | .compose => 0
  | .encode => 0
  | .reserved _ => 0

/-- The number of zero bytes that make a length a multiple of 4 (R145). -/
def padCount (len : Nat) : Nat := (4 - len % 4) % 4

/-- The token that stands in `OUT` after the enabled step of a running `ENCODE`, if a step is enabled (R26, R40): the
header with its length still zero (R131), the selected body token (R136), `EOL` at the row end (R142), `EOI` (R144),
the padding (R145), and the header with its length patched (R146; log 7). -/
def State.nextToken (s : State) : Option Instr :=
  match s.phase with
  | .idle => none
  | .compose => none
  | .header => some (.hdr 0)
  | .body =>
    if s.col.toNat = Config.width then some .eol
    else if s.col.toNat < Config.width ∧ s.row.toNat < Config.height then
      some (selectToken s.px s.row.toNat s.col.toNat)
    else none
  | .eoi => some .eoi
  | .pad => some .pad
  | .patch => some (.hdr s.byteCount)
  | .fault => none

end Sys2Proof.Machine
end

