-- ==== Sys2Proof/Machine/Encoder.lean ====
section
/-! DEFINITION. The steps of `ENCODE` (R130 to R146), one meaning for each token row. A token's meaning is the block
step that puts the token into `OUT`; in a state whose enabled step is another one, the block has no such step and the
meaning is refused by name (R40, R136; log 6). -/

namespace Sys2Proof.Machine

/-- Run a step if it is the enabled one: the one that puts this token into `OUT` (R40). -/
def whenSelected (i : Instr) (s : State) (run : State → Host.Outcome State Fault Refusal) :
    Host.Outcome State Fault Refusal :=
  if s.nextToken = some i then run s else .refused .tokenNotSelected

/-- `COL` after a token of `n` pixels (R137 to R140). -/
def State.colAfter (s : State) (n : Nat) : Pos := s.col + BitVec.ofNat 11 n

/-- The scan position after a token of `n` pixels: `N` holds the count (R25; log 14), `COL` moves on by it. -/
def State.advance (s : State) (n : Nat) : State := { s with n := BitVec.ofNat 11 n, col := s.colAfter n }

/-- A body step (R137 to R140) with its stall guard (R141): the token's bytes, then `COL` moves on by its count; a
step that would not increase `COL` raises `CodecStallGuard` instead. -/
def bodyStep (i : Instr) (s : State) : Host.Outcome State Fault Refusal :=
  if s.col < s.colAfter (pixelCount i) then emitThen (tokenBytes i) (fun t => t.advance (pixelCount i)) s
  else .next (s.takeFault (.codecStallGuard s.row s.col))

/-- The header step (R131). A header field that did not fit its width would raise `FieldOverflow` (R111). -/
def headerStep (s : State) : Host.Outcome State Fault Refusal :=
  match headerBytes 0 with
  | .ok bytes => emitThen bytes (fun t => { t with row := 0, col := 0, phase := .body }) { s with byteCount := 0 }
  | .error e => .next (s.takeFault (.fieldOverflow e.value e.width))

/-- The patch step and completion (R146). -/
def patchStep (s : State) : Host.Outcome State Fault Refusal :=
  match le32 s.byteCount.toNat with
  | .ok bytes => .next ({ s with out := s.out.writeAll Config.lengthOffset bytes }).finishEncode
  | .error e => .next (s.takeFault (.fieldOverflow e.value e.width))

/-- The end-of-row step (R142). -/
def endRow (s : State) : State :=
  { s with
    col   := 0
    row   := s.row + 1
    phase := if s.row + 1 = BitVec.ofNat 11 Config.height then .eoi else s.phase }

/-- `HDR`: the header step writes the header with length 0 (R131); the patch step leaves it with its length
(R146; log 7). -/
def execHdr (len : Reg) (s : State) : Host.Outcome State Fault Refusal :=
  whenSelected (.hdr len) s fun t => if t.phase = .patch then patchStep t else headerStep t

/-- `VREP.S`: the vertical repeat step with a count up to 127 (R137). -/
def execVrepS (n : Nat) (s : State) : Host.Outcome State Fault Refusal :=
  whenSelected (.vrepS n) s (bodyStep (.vrepS n))

/-- `VREP.L`: the vertical repeat step with a count from 128 on (R137). -/
def execVrepL (n : Nat) (s : State) : Host.Outcome State Fault Refusal :=
  whenSelected (.vrepL n) s (bodyStep (.vrepL n))

/-- `PIX`: the single literal step (R139). -/
def execPix (p : Pixel) (s : State) : Host.Outcome State Fault Refusal :=
  whenSelected (.pix p) s (bodyStep (.pix p))

/-- `HREP.S`: the horizontal repeat step with a count up to 127 (R138). -/
def execHrepS (n : Nat) (p : Pixel) (s : State) : Host.Outcome State Fault Refusal :=
  whenSelected (.hrepS n p) s (bodyStep (.hrepS n p))

/-- `HREP.L`: the horizontal repeat step with a count from 128 on (R138). -/
def execHrepL (n : Nat) (p : Pixel) (s : State) : Host.Outcome State Fault Refusal :=
  whenSelected (.hrepL n p) s (bodyStep (.hrepL n p))

/-- `LITS.S`: the literal run step with a count up to 127 (R140). -/
def execLitsS (ps : List Pixel) (s : State) : Host.Outcome State Fault Refusal :=
  whenSelected (.litsS ps) s (bodyStep (.litsS ps))

/-- `LITS.L`: the literal run step with a count from 128 on (R140). -/
def execLitsL (ps : List Pixel) (s : State) : Host.Outcome State Fault Refusal :=
  whenSelected (.litsL ps) s (bodyStep (.litsL ps))

/-- `EOL`: the end-of-row step (R142). -/
def execEol (s : State) : Host.Outcome State Fault Refusal :=
  whenSelected .eol s (emitThen (tokenBytes .eol) endRow)

/-- `EOI`: the end-of-image step (R144). -/
def execEoi (s : State) : Host.Outcome State Fault Refusal :=
  whenSelected .eoi s (emitThen (tokenBytes .eoi) fun t => { t with phase := .pad })

/-- `PAD`: the padding step, which emits all 0 to 3 padding bytes at once (R145; log 13). -/
def execPad (s : State) : Host.Outcome State Fault Refusal :=
  whenSelected .pad s fun t =>
    emitThen ((List.replicate (padCount t.byteCount.toNat) (tokenBytes .pad)).flatten)
      (fun u => { u with phase := .patch }) t

end Sys2Proof.Machine
end

