-- ==== Sys2Proof/Machine/Dispatch.lean ====
section
/-! DEFINITION. One arm for each constructor of Instr. -/

namespace Sys2Proof.Machine

def exec (i : Instr) (s : State) : Host.Outcome State Fault Refusal :=
  match i with
  | .hdr len => Sys2Proof.Machine.execHdr len s
  | .vrepS n => Sys2Proof.Machine.execVrepS n s
  | .vrepL n => Sys2Proof.Machine.execVrepL n s
  | .pix p => Sys2Proof.Machine.execPix p s
  | .hrepS n p => Sys2Proof.Machine.execHrepS n p s
  | .hrepL n p => Sys2Proof.Machine.execHrepL n p s
  | .litsS ps => Sys2Proof.Machine.execLitsS ps s
  | .litsL ps => Sys2Proof.Machine.execLitsL ps s
  | .eol => Sys2Proof.Machine.execEol s
  | .eoi => Sys2Proof.Machine.execEoi s
  | .pad => Sys2Proof.Machine.execPad s
  | .nop => Sys2Proof.Machine.execNop s
  | .compose => Sys2Proof.Machine.execCompose s
  | .encode => Sys2Proof.Machine.execEncode s
  | .reserved v => Sys2Proof.Machine.execReserved v s

end Sys2Proof.Machine
end

