-- ==== Sys2Proof/Machine/Fetch.lean ====
section
/-! DEFINITION. What the machine does next (R20, R40): the next move is read from `turns`; a `CMD` write is decoded to
its command, a turn of the block is its one enabled step. -/

namespace Sys2Proof.Machine

/-- What the next step of the machine is. -/
inductive Action where
  /-- A row of the opcode table: a command being written, or the token of the enabled `ENCODE` step. -/
  | instr (i : Instr)
  /-- The compose step (R126). -/
  | compose
  /-- A host transaction other than a `CMD` write (R186). -/
  | transact (m : HostMove)
  /-- The block's turn with no step enabled: `P_IDLE` or `P_FAULT` (R27, R187). -/
  | rest
  /-- `P_BODY` at a scan position outside `FRAME`, which no run reaches (R59; log 8). -/
  | outside
  deriving DecidableEq, Repr

/-- The block's enabled step, by `PHASE`, `ROW`, `COL` and `FRAME` (R26, R40). -/
def State.blockAction (s : State) : Action :=
  match s.nextToken with
  | some i => .instr i
  | none =>
    match s.phase with
    | .compose => .compose
    | .body => .outside
    | .idle => .rest
    | .header => .rest
    | .eoi => .rest
    | .pad => .rest
    | .patch => .rest
    | .fault => .rest

/-- What a host move is: a write of register 0 is a command, read from its value (R97, R180). -/
def hostAction (m : HostMove) : Action :=
  match m with
  | .writeReg 0 v => .instr (decodeCommand v)
  | m => .transact m

/-- The state with the next move taken from `turns`; a host transaction returns nothing unless it says so (log 2). -/
def State.afterFetch (s : State) : State :=
  match s.turns with
  | [] => s
  | .block :: rest => { s with turns := rest }
  | .host _ :: rest => { s with turns := rest, hostResult := none }

/-- The next action: with no move listed the block has the turn, so that an enabled step is taken (R233). -/
def State.fetch (s : State) : Action :=
  match s.turns with
  | [] => s.afterFetch.blockAction
  | .block :: _ => s.afterFetch.blockAction
  | .host m :: _ => hostAction m

/-- The cells of a run of pixels from an index of `FRAME` on, first pixel first. -/
def pixelCells (index : Nat) : List Pixel → List (Nat × Byte)
  | [] => []
  | p :: rest => (index, p.ch0) :: (index + 1, p.ch1) :: (index + 2, p.ch2) :: pixelCells (index + 3) rest

/-- `P_BODY` with the scan position `n` pixels before the end of a row. -/
def State.atBody (s : State) (r n : Nat) (cells : List (Nat × Byte)) : State :=
  { s with
    phase  := .body
    status := { s.status with busy := true }
    row    := BitVec.ofNat 11 r
    col    := BitVec.ofNat 11 (Config.width - n)
    frame  := { s.frame with cells := cells } }

/-- The next move is the block's. -/
def State.blockNext (s : State) : State := { s with turns := .block :: s.turns }

/-- The next move is a host write of `CMD`. -/
def State.commandNext (s : State) (v : Reg) : State := { s with turns := .host (.writeReg 0 v) :: s.turns }

/-- A busy phase. -/
def State.atPhase (s : State) (p : Phase) : State :=
  { s with phase := p, status := { s.status with busy := true } }

/-- The state in which the very next step is that of an instruction (log 11): for a command the host write of its
value, for a token the phase, the scan position and the pixels that make the encoder select it. -/
def State.arrange (s : State) (i : Instr) : State :=
  match i with
  | .hdr len =>
    if len = 0 then (s.atPhase .header).blockNext else { (s.atPhase .patch).blockNext with byteCount := len }
  | .vrepS n =>
    (s.atBody 1 n (pixelCells (frameIndex 0 (Config.width - n) 0) (List.replicate n default) ++
      pixelCells (frameIndex 1 (Config.width - n) 0) (List.replicate n default))).blockNext
  | .vrepL n =>
    (s.atBody 1 n (pixelCells (frameIndex 0 (Config.width - n) 0) (List.replicate n default) ++
      pixelCells (frameIndex 1 (Config.width - n) 0) (List.replicate n default))).blockNext
  | .pix p => (s.atBody 0 1 (pixelCells (frameIndex 0 (Config.width - 1) 0) [p])).blockNext
  | .hrepS n p => (s.atBody 0 n (pixelCells (frameIndex 0 (Config.width - n) 0) (List.replicate n p))).blockNext
  | .hrepL n p => (s.atBody 0 n (pixelCells (frameIndex 0 (Config.width - n) 0) (List.replicate n p))).blockNext
  | .litsS ps => (s.atBody 0 ps.length (pixelCells (frameIndex 0 (Config.width - ps.length) 0) ps)).blockNext
  | .litsL ps => (s.atBody 0 ps.length (pixelCells (frameIndex 0 (Config.width - ps.length) 0) ps)).blockNext
  | .eol => (s.atBody 0 0 s.frame.cells).blockNext
  | .eoi => (s.atPhase .eoi).blockNext
  | .pad => { (s.atPhase .pad).blockNext with byteCount := 3 }
  | .nop => s.commandNext 0x00000000
  | .compose => s.commandNext 0x00000001
  | .encode => s.commandNext 0x00000002
  | .reserved v => s.commandNext v

end Sys2Proof.Machine
end

