-- ==== Sys2Proof/Machine/HostPort.lean ====
section
/-! DEFINITION. The host transactions of R186, row by row. -/

namespace Sys2Proof.Machine

/-- A host write of a register, by number (R31, R186): `STATUS` and `LENGTH` ignore it in every phase. -/
def hostWriteReg (number : Nat) (value : Reg) (s : State) : Host.Outcome State Fault Refusal :=
  match number with
  | 0 => hostWrite (fun t => t.command value) s
  | 1 => hostWrite (fun t => { t with nplanes := value }) s
  | 2 => .next s
  | 3 => .next s
  | _ => .refused .noSuchRegister

/-- A host read of a register, by number (R31, R186): `CMD` reads 0, the others their current value. -/
def hostReadReg (number : Nat) (s : State) : Host.Outcome State Fault Refusal :=
  match number with
  | 0 => .next (s.returning 0)
  | 1 => .next (s.returning s.nplanes)
  | 2 => .next (s.returning s.status.word)
  | 3 => .next (s.returning s.length)
  | _ => .refused .noSuchRegister

/-- The transaction exists: it names a store the host may access in that way, at an index inside it, or one of the
four registers (R31, R59, R186). -/
def HostMove.isOffered (m : HostMove) : Bool :=
  match m with
  | .writePlane p r c _ => planeInside p r c
  | .readPlane _ _ _ => false
  | .writeFrame r c k _ => frameInside r c k
  | .readFrame r c k => frameInside r c k
  | .writeOut _ _ => false
  | .readOut a => decide (a < Config.outCap)
  | .writeReg number _ => decide (number < 4)
  | .readReg number => decide (number < 4)
  | .assertReset => true

/-- One host transaction (R186). An index outside a store is refused in every phase (R59; log 18). -/
def hostTransact (m : HostMove) (s : State) : Host.Outcome State Fault Refusal :=
  match m with
  | .writePlane p r c bit =>
    if planeInside p r c then hostWrite (fun t => { t with plane := t.plane.write (planeIndex p r c) bit }) s
    else .refused .indexOutsideStore
  | .readPlane _ _ _ => .refused .planeNotReadable
  | .writeFrame r c k byte =>
    if frameInside r c k then hostWrite (fun t => { t with frame := t.frame.write (frameIndex r c k) byte }) s
    else .refused .indexOutsideStore
  | .readFrame r c k =>
    if frameInside r c k then hostReadByte (s.frameByte r c k) s else .refused .indexOutsideStore
  | .writeOut _ _ => .refused .outNotWritable
  | .readOut a => if a < Config.outCap then hostReadByte (s.outByte a) s else .refused .indexOutsideStore
  | .writeReg number value => hostWriteReg number value s
  | .readReg number => hostReadReg number s
  | .assertReset => .next s.resetBlock

end Sys2Proof.Machine
end

