-- ==== Sys2Proof/Machine/Step.lean ====
section
/-! DEFINITION. One step of the machine: one atomic step of the block or one host transaction (R40, R61). -/

namespace Sys2Proof.Machine

/-- One step (R40): the next action, on the state with its move taken from `turns`. -/
def step (s : State) : Host.Outcome State Fault Refusal :=
  match s.fetch with
  | .instr i => exec i s.afterFetch
  | .compose => composeStep s.afterFetch
  | .transact m => hostTransact m s.afterFetch
  | .rest => .next s.afterFetch
  | .outside => .fault .scanOutsideFrame

/-- The state in which the very next step runs the instruction of a table word (log 11); a word that is no
instruction leaves the state as it is. -/
def State.withFetchWord (s : State) (nbits w : Nat) : State :=
  match decodeTableWord nbits w with
  | some i => s.arrange i
  | none => s

end Sys2Proof.Machine
end

