-- ==== Sys2Proof/Machine/Reference.lean ====
section
/-! DEFINITION. The reference decoder (R170 to R175). It is a function on byte sequences, no hardware of the block: it
has no state in `State` and no command (R170). It is here so that the round trip of R155 can be stated. -/

namespace Sys2Proof.Machine

/-- `rows` and `cur` of R171: the completed rows and the pixels of the row being built. -/
structure DecoderState where
  rows : List (List Pixel)
  cur  : List Pixel
  deriving DecidableEq, Repr

/-- Append pixels to the row being built; a row holds at most 1920 (R174). -/
def DecoderState.push (d : DecoderState) (ps : List Pixel) : Option DecoderState :=
  if Config.width < d.cur.length + ps.length then none else some { d with cur := d.cur ++ ps }

/-- The `n` pixels directly above the next ones of the row being built; none in the first row (R174). -/
def DecoderState.above (d : DecoderState) (n : Nat) : Option (List Pixel) :=
  match d.rows.getLast? with
  | none => none
  | some row => some ((row.drop d.cur.length).take n)

/-- A vertical repeat of `n` pixels (R174). -/
def DecoderState.repeatAbove (d : DecoderState) (n : Nat) : Option DecoderState :=
  if Config.width < d.cur.length + n then none
  else
    match d.above n with
    | none => none
    | some ps => d.push ps

/-- The end of a row: only when it is complete and there is room for it (R174). -/
def DecoderState.endRow (d : DecoderState) : Option DecoderState :=
  if d.cur.length = Config.width ∧ d.rows.length ≠ Config.height then some ⟨d.rows ++ [d.cur], []⟩ else none

/-- What a body token other than `EOI` means to the reader (R82, R174). -/
def DecoderState.token (d : DecoderState) (i : Instr) : Option DecoderState :=
  match i with
  | .hdr _ => none
  | .vrepS n => d.repeatAbove n
  | .vrepL n => d.repeatAbove n
  | .pix p => d.push [p]
  | .hrepS n p => d.push (List.replicate n p)
  | .hrepL n p => d.push (List.replicate n p)
  | .litsS ps => d.push ps
  | .litsL ps => d.push ps
  | .eol => d.endRow
  | .eoi => none
  | .pad => none
  | .nop => none
  | .compose => none
  | .encode => none
  | .reserved _ => none

/-- The token loop: until `EOI`, at most `fuel` tokens; the answer is what was read and the bytes after `EOI`
(R174). -/
def decodeTokens : Nat → List Byte → DecoderState → Option (DecoderState × List Byte)
  | 0, _, _ => none
  | fuel + 1, bytes, d =>
    match decodeBody bytes with
    | .error _ => none
    | .ok (i, rest) =>
      if i = .eoi then some (d, rest)
      else
        match d.token i with
        | none => none
        | some d' => decodeTokens fuel rest d'

/-- The header's length field is the length of the stream (R172). -/
def headerMatches (bytes : List Byte) : Bool :=
  match decodeHeader bytes with
  | .ok (.hdr len, _) => decide (len.toNat = bytes.length)
  | _ => false

/-- `decode`: the rows of the frame a stream stands for, or none where it is rejected (R172 to R175). Every token is
at least one byte long, so the bytes bound the loop. -/
def decodeStreamImage (bytes : List Byte) : Option (List (List Pixel)) :=
  if headerMatches bytes then
    match decodeTokens bytes.length (bytes.drop Config.headerLength) ⟨[], []⟩ with
    | none => none
    | some (d, rest) =>
      if d.rows.length = Config.height ∧ d.cur = [] ∧ rest.length ≤ 3 ∧ rest.all (fun b => decide (b = 0x00)) then
        some d.rows
      else none
  else none

/-- The rows of an image, top row first and leftmost pixel first (R52). -/
def imageRows (F : Image) : List (List Pixel) :=
  (List.range Config.height).map fun r => (List.range Config.width).map fun c => F r c

end Sys2Proof.Machine
end

