-- ==== Sys2Proof/Machine/Stream.lean ====
section
/-! DEFINITION. `encode(F)`: the whole of `ENCODE` as one function of an image (R147). The steps of Encoder are the
machine; this is the function their bytes are compared with. -/

namespace Sys2Proof.Machine

/-- The tokens the body steps emit in a row from a column on, at most `fuel` of them (R147). -/
def rowTokens (F : Image) (r : Nat) : Nat → Nat → List Instr
  | 0, _ => []
  | fuel + 1, c =>
    if c < Config.width then
      selectToken F r c :: rowTokens F r fuel (c + pixelCount (selectToken F r c))
    else []

/-- The tokens of a row: a row takes at most 1920 body steps (R148). -/
def tokensOfRow (F : Image) (r : Nat) : List Instr := rowTokens F r Config.width 0

/-- `rowbytes(F, r)` (R147). -/
def rowBytes (F : Image) (r : Nat) : List Byte := (tokensOfRow F r).flatMap tokenBytes ++ tokenBytes .eol

/-- `body` of R147. -/
def bodyBytes (F : Image) : List Byte := (List.range Config.height).flatMap (rowBytes F) ++ tokenBytes .eoi

/-- `L` of R147: header, body and padding. -/
def streamLength (F : Image) : Nat :=
  Config.headerLength + (bodyBytes F).length + padCount (Config.headerLength + (bodyBytes F).length)

/-- `encode(F)` of R147. -/
def encodeImage (F : Image) : List Byte :=
  tokenBytes (.hdr (BitVec.ofNat 32 (streamLength F))) ++ bodyBytes F ++
    List.replicate (padCount (Config.headerLength + (bodyBytes F).length)) 0x00

end Sys2Proof.Machine
end

