-- ==== Sys2Proof/Safety.lean ====
section
/-! DEFINITION. What claims say about a state and a step: the invariants of a run, and which bytes of `OUT` a step
writes. -/

namespace Sys2Proof.Machine

/-- `STATUS` agrees with `PHASE` (R29): `BUSY` is 1 exactly in the busy phases, `FAULT` exactly in `P_FAULT`,
`FAULT_CODE` is 0 exactly when `FAULT` is 0 and never above 5 (R200). -/
structure State.StatusInv (s : State) : Prop where
  busy  : s.status.busy = s.phase.isBusy
  fault : s.status.fault = decide (s.phase = .fault)
  code  : s.status.faultCode = 0 ↔ s.status.fault = false
  known : s.status.faultCode.toNat ≤ 5

/-- Every store lists only locations of its extent (R21 to R23), in the canonical form this model gives a store
(log 3). -/
structure State.StoresInv (s : State) : Prop where
  plane       : s.plane.wf = true
  frame       : s.frame.wf = true
  out         : s.out.wf = true
  planeExtent : s.plane.within Config.planeSize = true
  frameExtent : s.frame.within Config.frameSize = true
  outExtent   : s.out.within Config.outCap = true

/-- The scan position is inside the image and the byte count is within the bound of R151 for it: 4 bytes for each
pixel covered, 7682 for each complete row (R26, R150, R151). -/
structure State.ScanInv (s : State) : Prop where
  row     : s.phase = .body → s.row.toNat < Config.height
  col     : s.phase = .body → s.col.toNat ≤ Config.width
  body    : s.phase = .body → s.byteCount.toNat ≤ 48 + 7682 * s.row.toNat + 4 * s.col.toNat
  eoi     : s.phase = .eoi → s.byteCount.toNat ≤ 48 + 7682 * Config.height
  pad     : s.phase = .pad → s.byteCount.toNat ≤ 48 + 7682 * Config.height + 3
  patch   : s.phase = .patch → s.byteCount.toNat ≤ Config.outCap
  aligned : s.phase = .patch → s.byteCount.toNat % Config.alignment = 0

/-- The value of the four bytes of `OUT` at the length field's offset, read little-endian (R57). -/
def State.lengthField (s : State) : Nat :=
  (s.outByte 8).toNat + 256 * (s.outByte 9).toNat + 65536 * (s.outByte 10).toNat + 16777216 * (s.outByte 11).toNat

/-- `OUT_VALID` and `LENGTH` (R29, R30, R152): a valid stream's length is a multiple of 4, fits `OUT` and is what its
header says; without a valid stream `LENGTH` is 0; no stream is valid while `ENCODE` runs or after a fault. -/
structure State.LengthInv (s : State) : Prop where
  quiet   : s.status.outValid = true → s.phase = .idle ∨ s.phase = .compose
  zero    : s.status.outValid = false → s.length = 0
  aligned : s.status.outValid = true → s.length.toNat % Config.alignment = 0
  bounded : s.status.outValid = true → s.length.toNat ≤ Config.outCap
  header  : s.status.outValid = true → s.lengthField = s.length.toNat

/-- The invariant of a run. -/
structure State.Inv (s : State) : Prop where
  status : s.StatusInv
  stores : s.StoresInv
  scan   : s.ScanInv
  len    : s.LengthInv

/-- From `s` to `t` exactly the bytes of `OUT` from `a` on are written with a byte sequence: every other byte reads as
before. -/
def OutWritten (s t : State) (a : Nat) (bytes : List Byte) : Prop :=
  ∀ x, t.outByte x = if a ≤ x ∧ x < a + bytes.length then bytes.getD (x - a) 0 else s.outByte x

/-- Every byte of `OUT` reads as before. -/
def OutUnchanged (s t : State) : Prop := ∀ x, t.outByte x = s.outByte x

/-- The host writes that need the block's stores and `NPLANES` to be the host's: `CMD`, `NPLANES`, `PLANE`, `FRAME`
(R65, R204). -/
def HostMove.isOwnedWrite (m : HostMove) : Bool :=
  match m with
  | .writePlane _ _ _ _ => true
  | .readPlane _ _ _ => false
  | .writeFrame _ _ _ _ => true
  | .readFrame _ _ _ => false
  | .writeOut _ _ => false
  | .readOut _ => false
  | .writeReg number _ => decide (number ≤ 1)
  | .readReg _ => false
  | .assertReset => false

/-- The host reads of R186. -/
def HostMove.isRead (m : HostMove) : Bool :=
  match m with
  | .writePlane _ _ _ _ => false
  | .readPlane _ _ _ => true
  | .writeFrame _ _ _ _ => false
  | .readFrame _ _ _ => true
  | .writeOut _ _ => false
  | .readOut _ => true
  | .writeReg _ _ => false
  | .readReg _ => true
  | .assertReset => false

/-- The next step is the block's: no move is listed, or the block's turn is. -/
def State.blockTurn (s : State) : Bool :=
  match s.turns with
  | [] => true
  | .block :: _ => true
  | .host _ :: _ => false

end Sys2Proof.Machine
end

