-- ==== Sys2Proof/Certificates/Slice0/Obligations.lean ====
section
/-! DEFINITION. The statements for the provers. Each docstring names the rules it formalises; where a statement says
something the model chose, it names the log entry. -/

open Sys2Proof Sys2Proof.Machine

/-! ## Encodings -/

/-- R80, R82, R83, R86, R97: every well-formed instruction is read back from its encoding, whatever bytes follow. -/
def Obligations.DecodeInvertsEncode : Prop :=
  ∀ i : Instr, i.WellFormed →
    decode (encode i) = .ok (i, []) ∧
    ∀ part bytes rest, encode i = .stream part bytes → decode (.stream part (bytes ++ rest)) = .ok (i, rest)

/-- R83, R93: whatever the decoder accepts is the encoding of the well-formed token it answers, so the leading-byte
map is unambiguous and no never-emitted token form is accepted. -/
def Obligations.DecodedTokenIsItsEncoding : Prop :=
  ∀ (part : StreamPart) (bytes rest : List Byte) (i : Instr), decodeStream part bytes = .ok (i, rest) →
    i.WellFormed ∧ encode i = .stream part (tokenBytes i) ∧ bytes = tokenBytes i ++ rest

/-- R86, R87: a run count from 1 to 1920 is read back from `cnt(n)`, and `cnt(n)` is never `00` first. -/
def Obligations.CountOperandReadsBack : Prop :=
  ∀ (n : Nat) (rest : List Byte), 1 ≤ n → n ≤ 1920 →
    readCount (countBytes n ++ rest) = .ok (n, rest) ∧ (countBytes n).head? ≠ some 0x00

/-- R83, R92, R97, R98: words written out from the encodings of the spec decode to their instructions: the body tokens
by their leading bytes, padding in the tail, the three commands and a reserved value. -/
def Obligations.WordsOfTheSpecDecode : Prop :=
  decodeBody [0x00, 0x01, 0x02] = .ok (.vrepS 2, []) ∧
  decodeBody [0x00, 0x01, 0x80, 0x0F] = .ok (.vrepL 1920, []) ∧
  decodeBody [0x01, 0x10, 0x20, 0x30] = .ok (.pix ⟨0x10, 0x20, 0x30⟩, []) ∧
  decodeBody [0x02, 0x02, 0x03, 0x04] = .ok (.hrepS 2 ⟨0x02, 0x03, 0x04⟩, []) ∧
  decodeBody [0xF8, 0x0E, 0x00, 0x00, 0x00] = .ok (.hrepL 1912 ⟨0x00, 0x00, 0x00⟩, []) ∧
  decodeBody [0x00, 0x02, 0x03, 0x03, 0x03, 0x04, 0x04, 0x04] =
    .ok (.litsS [⟨0x03, 0x03, 0x03⟩, ⟨0x04, 0x04, 0x04⟩], []) ∧
  decodeBody [0x00, 0x00] = .ok (.eol, []) ∧
  decodeBody [0x00, 0x01, 0x00] = .ok (.eoi, []) ∧
  decodeTail [0x00] = .ok (.pad, []) ∧
  decodeCommand 0x00000000 = .nop ∧
  decodeCommand 0x00000001 = .compose ∧
  decodeCommand 0x00000002 = .encode ∧
  decodeCommand 0x00000003 = .reserved 0x00000003

/-! ## Field packer -/

/-- R111: `toBits` answers exactly `width` bits, most significant first, and overflows exactly where the value is
negative or does not fit. -/
def Obligations.ToBitsIsBigEndianOrOverflows : Prop :=
  ∀ (value : Int) (width : Nat),
    ((value < 0 ∨ (2 : Int) ^ width ≤ value) → toBits value width = .error ⟨value, width⟩) ∧
    ((0 ≤ value ∧ value < (2 : Int) ^ width) →
      ∃ bits, toBits value width = .ok bits ∧ bits.length = width ∧
        ∀ j, j < width → bits.getD j false = value.toNat.testBit (width - 1 - j))

/-- R113: a value packed over 1 to 32 bits is its little-endian bytes. -/
def Obligations.PackedValueIsLittleEndian : Prop :=
  ∀ width v : Nat, 1 ≤ width → width ≤ 32 → v < 2 ^ width →
    ∃ bytes, pack v width = .ok bytes ∧ bytes.length = (width + 7) / 8 ∧
      (∀ i, i < bytes.length → (bytes.getD i 0).toNat = (v >>> (8 * i)) &&& 0xFF) ∧
      v = ∑ i ∈ Finset.range bytes.length, (bytes.getD i 0).toNat * 256 ^ i

/-! ## Commands -/

/-- R183: an accepted `NOP` changes no state. -/
def Obligations.NopChangesNothing : Prop :=
  ∀ s : State, s.phase = .idle → s.status.busy = false → exec .nop s = .next s

/-- R182: the start of `ENCODE`. -/
def Obligations.EncodeCommandStarts : Prop :=
  ∀ s : State, s.phase = .idle → s.status.busy = false →
    exec .encode s = .next { s with
      phase := .header, status := { s.status with busy := true, outValid := false }, length := 0 }

/-- R184, R203, R205, R187: a reserved command raises `IllegalCommand`; no store and no other register changes. -/
def Obligations.ReservedCommandIsIllegal : Prop :=
  ∀ (s : State) (v : Reg), 3 ≤ v.toNat → s.phase = .idle → s.status.busy = false →
    exec (.reserved v) s = .next { s with
      phase := .fault, status := { busy := false, fault := true, outValid := false, faultCode := 4 }, length := 0 }

/-- R180, R187, R207: in `P_FAULT` every command is ignored. -/
def Obligations.CommandsIgnoredAfterFault : Prop :=
  ∀ (s : State) (v : Reg), s.phase = .fault → exec (decodeCommand v) s = .next s

/-- R97, R98, R180: a `CMD` write is the decoded command, whatever its value and the phase. -/
def Obligations.CommandWriteIsDecodedCommand : Prop :=
  ∀ (s : State) (v : Reg), hostTransact (.writeReg 0 v) s = exec (decodeCommand v) s

/-! ## Compositor -/

/-- R181: the start of `COMPOSE`: `PHASE` and `BUSY`, nothing else. -/
def Obligations.ComposeCommandStarts : Prop :=
  ∀ s : State, s.phase = .idle → s.status.busy = false →
    exec .compose s = .next { s with phase := .compose, status := { s.status with busy := true } }

/-- R120, R122, R123, R126, R38: `COMPOSE` from its command to its completion. Every byte of `FRAME` becomes the
weighted sum of its eight planes, planes at and above `NPLANES` counting 0; nothing else has changed. -/
def Obligations.ComposePacksThePlanes : Prop :=
  ∀ s : State, s.phase = .idle → s.status.busy = false → s.turns = [] → s.nplanes.toNat ≤ 24 →
    ∃ t u, exec .compose s = .next t ∧ step t = .next u ∧ u = { s with frame := u.frame } ∧
      ∀ r c k, r < 1080 → c < 1920 → k < 3 →
        (u.frameByte r c k).toNat =
          ∑ i ∈ Finset.range 8,
            (if 8 * (2 - k) + i < s.nplanes.toNat then (s.planeBit (8 * (2 - k) + i) r c).toNat else 0) * 2 ^ i

/-- R125: after a `COMPOSE`, bit `i mod 8` of channel `2 - i/8` is plane `i`, and 0 for a plane not supplied. -/
def Obligations.ComposeIsInvertible : Prop :=
  ∀ s t : State, s.phase = .compose → s.blockTurn = true → s.nplanes.toNat ≤ 24 → step s = .next t →
    ∀ i r c, i < 24 → r < 1080 → c < 1920 →
      (t.frameByte r c (2 - i / 8)).getLsbD (i % 8) =
        if i < s.nplanes.toNat then s.planeBit i r c else false

/-- R124: the composed pixel depends on the supplied bits at that pixel and on `NPLANES` only. -/
def Obligations.ComposeIsLaneWise : Prop :=
  ∀ s s' t t' : State, s.phase = .compose → s'.phase = .compose → s.blockTurn = true → s'.blockTurn = true →
    s.nplanes = s'.nplanes → s.nplanes.toNat ≤ 24 → step s = .next t → step s' = .next t' →
    ∀ r c, r < 1080 → c < 1920 → (∀ p, p < s.nplanes.toNat → s.planeBit p r c = s'.planeBit p r c) →
      t.px r c = t'.px r c

/-- R121, R201, R205: more than 24 planes raise `TooManyPlanes` before any store is written. -/
def Obligations.TooManyPlanesFaults : Prop :=
  ∀ s : State, s.phase = .compose → s.blockTurn = true → 24 < s.nplanes.toNat →
    step s = .next { s with
      turns := s.turns.tail, phase := .fault, length := 0,
      status := { busy := false, fault := true, outValid := false, faultCode := 1 } }

/-! ## Encoder steps -/

/-- R131, R80: the header step writes the 48 header bytes with length 0 at offset 0 and starts the scan. -/
def Obligations.HeaderStepCompletes : Prop :=
  ∀ s : State, s.phase = .header →
    ∃ t, exec (.hdr 0) s = .next t ∧
      t = { s with out := t.out, byteCount := 48, row := 0, col := 0, phase := .body } ∧
      OutWritten s t 0
        ([0x53, 0x70, 0x6C, 0x64, 0x80, 0x07, 0x38, 0x04, 0x00, 0x00, 0x00, 0x00] ++ List.replicate 8 0xFF ++
          List.replicate 4 0x00 ++ [0x00, 0x02, 0x01] ++ List.replicate 21 0x00)

/-- R137, R82: where the pixels from the scan position on equal those above for exactly `n` columns, the vertical
repeat of `n` is emitted and `COL` moves on by `n`. `N` holds the count (R25). -/
def Obligations.VerticalRepeatCompletes : Prop :=
  ∀ (s : State) (n r c : Nat), s.phase = .body → s.row.toNat = r → s.col.toNat = c → 0 < r → r < 1080 →
    1 ≤ n → c + n ≤ 1920 →
    (∀ k, c ≤ k → k < c + n → s.px r k = s.px (r - 1) k) →
    (c + n = 1920 ∨ s.px r (c + n) ≠ s.px (r - 1) (c + n)) →
    s.byteCount.toNat + (countBytes n).length + 2 ≤ 8296612 →
    ∃ t, exec (if n < 128 then .vrepS n else .vrepL n) s = .next t ∧
      t = { s with
        out := t.out, byteCount := s.byteCount + BitVec.ofNat 32 ((countBytes n).length + 2),
        col := BitVec.ofNat 11 (c + n), n := BitVec.ofNat 11 n } ∧
      OutWritten s t s.byteCount.toNat ([0x00, 0x01] ++ countBytes n)

/-- R138, R136, R82: where the pixel does not equal the one above and exactly `n` pixels from it on are equal, the
horizontal repeat of `n` is emitted. -/
def Obligations.HorizontalRepeatCompletes : Prop :=
  ∀ (s : State) (n r c : Nat), s.phase = .body → s.row.toNat = r → s.col.toNat = c → r < 1080 →
    2 ≤ n → c + n ≤ 1920 →
    (r = 0 ∨ s.px r c ≠ s.px (r - 1) c) →
    (∀ k, c ≤ k → k < c + n → s.px r k = s.px r c) →
    (c + n = 1920 ∨ s.px r (c + n) ≠ s.px r c) →
    s.byteCount.toNat + (countBytes n).length + 3 ≤ 8296612 →
    ∃ t, exec (if n < 128 then .hrepS n (s.px r c) else .hrepL n (s.px r c)) s = .next t ∧
      t = { s with
        out := t.out, byteCount := s.byteCount + BitVec.ofNat 32 ((countBytes n).length + 3),
        col := BitVec.ofNat 11 (c + n), n := BitVec.ofNat 11 n } ∧
      OutWritten s t s.byteCount.toNat
        (countBytes n ++ [s.frameByte r c 0, s.frameByte r c 1, s.frameByte r c 2])

/-- R139, R136, R82: a pixel that starts no repeat, at the last column or before a pixel that starts one, is emitted
alone. That `N` holds 1 after it is this model's reading of R25 (log 14). -/
def Obligations.SingleLiteralCompletes : Prop :=
  ∀ (s : State) (r c : Nat), s.phase = .body → s.row.toNat = r → s.col.toNat = c → r < 1080 → c < 1920 →
    (r = 0 ∨ s.px r c ≠ s.px (r - 1) c) →
    (c = 1919 ∨ s.px r c ≠ s.px r (c + 1)) →
    (c = 1919 ∨ (0 < r ∧ s.px r (c + 1) = s.px (r - 1) (c + 1)) ∨
      (c + 2 ≤ 1919 ∧ s.px r (c + 1) = s.px r (c + 2))) →
    s.byteCount.toNat + 4 ≤ 8296612 →
    ∃ t, exec (.pix (s.px r c)) s = .next t ∧
      t = { s with
        out := t.out, byteCount := s.byteCount + 4, col := BitVec.ofNat 11 (c + 1), n := 1 } ∧
      OutWritten s t s.byteCount.toNat [0x01, s.frameByte r c 0, s.frameByte r c 1, s.frameByte r c 2]

/-- R140, R136, R82, R85: where exactly `n >= 2` pixels from the scan position on start no repeat, they are emitted as
one literal run. -/
def Obligations.LiteralRunCompletes : Prop :=
  ∀ (s : State) (n r c : Nat) (ps : List Pixel), s.phase = .body → s.row.toNat = r → s.col.toNat = c → r < 1080 →
    2 ≤ n → c + n ≤ 1920 →
    ps = (List.range n).map (fun j => s.px r (c + j)) →
    (∀ k, c ≤ k → k < c + n →
      (r = 0 ∨ s.px r k ≠ s.px (r - 1) k) ∧ (k = 1919 ∨ s.px r k ≠ s.px r (k + 1))) →
    (c + n = 1920 ∨ (0 < r ∧ s.px r (c + n) = s.px (r - 1) (c + n)) ∨
      (c + n + 1 ≤ 1919 ∧ s.px r (c + n) = s.px r (c + n + 1))) →
    s.byteCount.toNat + 1 + (countBytes n).length + 3 * n ≤ 8296612 →
    ∃ t, exec (if n < 128 then .litsS ps else .litsL ps) s = .next t ∧
      t = { s with
        out := t.out, byteCount := s.byteCount + BitVec.ofNat 32 (1 + (countBytes n).length + 3 * n),
        col := BitVec.ofNat 11 (c + n), n := BitVec.ofNat 11 n } ∧
      OutWritten s t s.byteCount.toNat
        ([0x00] ++ countBytes n ++ ps.flatMap fun p => [p.ch0, p.ch1, p.ch2])

/-- R142: the end-of-row step, after the last row the end of the body. -/
def Obligations.EndOfRowCompletes : Prop :=
  ∀ s : State, s.phase = .body → s.col = 1920 → s.byteCount.toNat + 2 ≤ 8296612 →
    ∃ t, exec .eol s = .next t ∧
      t = { s with
        out := t.out, byteCount := s.byteCount + 2, col := 0, row := s.row + 1,
        phase := if s.row + 1 = 1080 then .eoi else .body } ∧
      OutWritten s t s.byteCount.toNat [0x00, 0x00]

/-- R144: the end-of-image step. -/
def Obligations.EndOfImageCompletes : Prop :=
  ∀ s : State, s.phase = .eoi → s.byteCount.toNat + 3 ≤ 8296612 →
    ∃ t, exec .eoi s = .next t ∧
      t = { s with out := t.out, byteCount := s.byteCount + 3, phase := .pad } ∧
      OutWritten s t s.byteCount.toNat [0x00, 0x01, 0x00]

/-- R145, R92: the padding step writes the 0 to 3 zero bytes that make the length a multiple of 4. -/
def Obligations.PaddingCompletes : Prop :=
  ∀ s : State, s.phase = .pad → s.byteCount.toNat + 3 ≤ 8296612 →
    ∃ t k, exec .pad s = .next t ∧ k ≤ 3 ∧ (s.byteCount.toNat + k) % 4 = 0 ∧
      t = { s with out := t.out, byteCount := s.byteCount + BitVec.ofNat 32 k, phase := .patch } ∧
      OutWritten s t s.byteCount.toNat (List.replicate k 0x00)

/-- R146, R57: the patch step writes the length little-endian at offset 8 and completes the operation. That it is the
meaning of `HDR` with its length is this model's choice (log 7). -/
def Obligations.PatchCompletes : Prop :=
  ∀ s : State, s.phase = .patch →
    ∃ t, exec (.hdr s.byteCount) s = .next t ∧
      t = { s with
        out := t.out, phase := .idle, length := s.byteCount,
        status := { s.status with busy := false, outValid := true } } ∧
      OutWritten s t 8
        [BitVec.ofNat 8 s.byteCount.toNat, BitVec.ofNat 8 (s.byteCount.toNat >>> 8),
          BitVec.ofNat 8 (s.byteCount.toNat >>> 16), BitVec.ofNat 8 (s.byteCount.toNat >>> 24)] ∧
      t.lengthField = s.byteCount.toNat

/-- R40, R136: a token other than that of the enabled step is not emitted: the block has no such step. That the model
refuses it by name is its choice (log 6). -/
def Obligations.OtherTokensAreRefused : Prop :=
  ∀ (s : State) (i : Instr) (part : StreamPart), encode i = .stream part (tokenBytes i) → s.nextToken ≠ some i →
    exec i s = .refused .tokenNotSelected

/-! ## Properties of the encoder -/

/-- R148, R150, R41: a body step of a scan inside the image completes, strictly advances `COL` and stays in the row. -/
def Obligations.BodyStepAdvances : Prop :=
  ∀ s : State, s.phase = .body → s.ScanInv → s.col.toNat < 1920 → s.blockTurn = true →
    ∃ t, step s = .next t ∧ t.phase = .body ∧ t.row = s.row ∧ s.col.toNat < t.col.toNat ∧ t.col.toNat ≤ 1920

/-- R93, R149, R150: what the enabled step emits is well formed (so a literal run has at least two pixels and every
count is canonical), no vertical repeat is emitted in row 0, and no token crosses the row end. -/
def Obligations.EmittedTokensAreLegal : Prop :=
  ∀ (s : State) (i : Instr), s.ScanInv → s.nextToken = some i →
    i.WellFormed ∧ ((∃ n, i = .vrepS n ∨ i = .vrepL n) → 0 < s.row.toNat) ∧
      (s.phase = .body → s.col.toNat + pixelCount i ≤ 1920)

/-- R154: a row 0 that alternates between two pixels is covered by one literal run of 1920. -/
def Obligations.AlternatingRowZeroIsOneLiteralRun : Prop :=
  ∀ (s : State) (a b : Pixel), a ≠ b → s.phase = .body → s.row = 0 → s.col = 0 → s.blockTurn = true →
    s.byteCount.toNat + 5763 ≤ 8296612 →
    (∀ c, c < 1920 → s.px 0 c = if c % 2 = 0 then a else b) →
    ∃ t, step s = .next t ∧ t.phase = .body ∧ t.row = 0 ∧ t.col = 1920 ∧
      OutWritten s t s.byteCount.toNat
        ([0x00, 0x80, 0x0F] ++
          (List.range 1920).flatMap fun c => pixelBytes (if c % 2 = 0 then a else b))

/-- R156: what can follow a token inside a row. -/
def Obligations.RowTokenSequenceShape : Prop :=
  ∀ (F : Image) (r c : Nat), c < 1920 → c + pixelCount (selectToken F r c) < 1920 →
    (∀ n, selectToken F r c = .vrepS n ∨ selectToken F r c = .vrepL n →
      ∀ m, selectToken F r (c + n) ≠ .vrepS m ∧ selectToken F r (c + n) ≠ .vrepL m) ∧
    (∀ n p, selectToken F r c = .hrepS n p ∨ selectToken F r c = .hrepL n p → F r (c + n) ≠ p) ∧
    (∀ p, selectToken F r c = .pix p →
      ∃ n q, selectToken F r (c + 1) = .vrepS n ∨ selectToken F r (c + 1) = .vrepL n ∨
        selectToken F r (c + 1) = .hrepS n q ∨ selectToken F r (c + 1) = .hrepL n q) ∧
    (∀ ps, selectToken F r c = .litsS ps ∨ selectToken F r c = .litsL ps →
      ∃ n q, selectToken F r (c + ps.length) = .vrepS n ∨ selectToken F r (c + ps.length) = .vrepL n ∨
        selectToken F r (c + ps.length) = .hrepS n q ∨ selectToken F r (c + ps.length) = .hrepL n q)

/-- R147: the bytes of a row depend on that row and the one above it only, on row 0 alone for row 0. -/
def Obligations.RowBytesDependOnTwoRows : Prop :=
  ∀ (F G : Image) (r : Nat), (∀ c, c < 1920 → F r c = G r c) →
    (0 < r → ∀ c, c < 1920 → F (r - 1) c = G (r - 1) c) → rowBytes F r = rowBytes G r

/-- R151, R152, R80: the length of every stream is a multiple of 4, between 6532 and 8 296 612, and what its header's
length field says. -/
def Obligations.StreamLengthIsBoundedAndPatched : Prop :=
  ∀ F : Image,
    (encodeImage F).length = streamLength F ∧ streamLength F % 4 = 0 ∧ 6532 ≤ streamLength F ∧
      streamLength F ≤ 8296612 ∧ numberOfBytes (((encodeImage F).drop 8).take 4) = streamLength F

/-- R130, R147, R146, R38, R23: from its command, `ENCODE` with no host transaction in between reaches completion with
`encode(F)` in `OUT`, its length in `LENGTH`, `OUT_VALID` set, and `PLANE`, `FRAME`, `NPLANES` and every byte of `OUT`
beyond the stream unchanged. -/
def Obligations.EncodeRunsToItsFunction : Prop :=
  ∀ s : State, s.phase = .idle → s.status.busy = false → s.turns = [] →
    ∃ t, exec .encode s = .next t ∧
      ∃ k u, Host.Core.run Sys2Proof.core k t = .next u ∧ u.phase = .idle ∧
        u.status = { s.status with outValid := true } ∧
        u.length = BitVec.ofNat 32 (streamLength s.px) ∧
        OutWritten s u 0 (encodeImage s.px) ∧
        u.plane = s.plane ∧ u.frame = s.frame ∧ u.nplanes = s.nplanes

/-- R232: `ENCODE` takes at least 2164 and at most 2 074 684 steps, busy before the last and idle after it. -/
def Obligations.EncodeTerminatesInBoundedSteps : Prop :=
  ∀ s : State, s.phase = .header → s.turns = [] →
    ∃ k u, 2164 ≤ k ∧ k ≤ 2074684 ∧ Host.Core.run Sys2Proof.core k s = .next u ∧ u.phase = .idle ∧
      u.status.outValid = true ∧
      ∀ j, j < k → ∃ v : State, Host.Core.run Sys2Proof.core j s = .next v ∧ v.phase.isEncode = true

/-- R155, R176: the reference decoder reads every image back from its stream. -/
def Obligations.DecoderReadsEncodedImageBack : Prop :=
  ∀ F : Image, decodeStreamImage (encodeImage F) = some (imageRows F)

/-! ## Faults -/

/-- R205, R187, R200: what a fault leaves. `PLANE` and every register but `STATUS`, `LENGTH` and `PHASE` keep their
values; `FRAME` does unless a `BusyViolation` met `P_COMPOSE`, `OUT` does unless `ENCODE` was running. -/
def Obligations.FaultEntryLeaves : Prop :=
  ∀ (s : State) (f : FaultCause),
    s.takeFault f = { s with
      phase := .fault, length := 0,
      status := { busy := false, fault := true, outValid := false, faultCode := f.code },
      frame := (s.takeFault f).frame, out := (s.takeFault f).out, fresh := (s.takeFault f).fresh } ∧
    (¬(s.phase = .compose ∧ f = .busyViolation) → (s.takeFault f).frame = s.frame) ∧
    (s.phase.isEncode = false → (s.takeFault f).out = s.out)

/-- R187, R207, R229: only reset leaves `P_FAULT`; until then no step changes anything but what a read returns. The
premise on `BUSY` is R29's. -/
def Obligations.OnlyResetLeavesFault : Prop :=
  ∀ s t : State, s.phase = .fault → s.status.busy = false → step s = .next t →
    (∃ rest, s.turns = .host .assertReset :: rest) ∨
    t = { s with turns := s.turns.tail, hostResult := t.hostResult }

/-- R200, R202, R206, R208: from a scan inside the image, a step that enters `P_FAULT` raised `TooManyPlanes` in the
compose step, `IllegalCommand` on a reserved command, or `BusyViolation` on a host write while busy; so no step raises
`CodecStallGuard` or `FieldOverflow`. -/
def Obligations.WhichFaultsOccur : Prop :=
  ∀ s t : State, s.ScanInv → s.phase ≠ .fault → step s = .next t → t.phase = .fault →
    (s.phase = .compose ∧ s.blockTurn = true ∧ 24 < s.nplanes.toNat ∧ t.status.faultCode = 1) ∨
    (∃ v rest, s.turns = .host (.writeReg 0 v) :: rest ∧ 3 ≤ v.toNat ∧ s.status.busy = false ∧
      t.status.faultCode = 4) ∨
    (∃ m rest, s.turns = .host m :: rest ∧ m.isOwnedWrite = true ∧ s.status.busy = true ∧
      t.status.faultCode = 5)

/-! ## Host transactions -/

/-- R186, R65: while the block is not busy a host write of `PLANE` stores the bit and changes nothing else. -/
def Obligations.HostWritesPlane : Prop :=
  ∀ (s : State) (p r c : Nat) (bit : Bool) (rest : List Turn), s.phase = .idle → s.status.busy = false →
    s.turns = .host (.writePlane p r c bit) :: rest → p < 24 → r < 1080 → c < 1920 →
    ∃ t, step s = .next t ∧ t = { s with turns := rest, hostResult := none, plane := t.plane } ∧
      ∀ p' r' c', p' < 24 → r' < 1080 → c' < 1920 →
        t.planeBit p' r' c' = if p' = p ∧ r' = r ∧ c' = c then bit else s.planeBit p' r' c'

/-- R186, R65: while the block is not busy a host write of `FRAME` stores the byte and changes nothing else. -/
def Obligations.HostWritesFrame : Prop :=
  ∀ (s : State) (r c k : Nat) (byte : Byte) (rest : List Turn), s.phase = .idle → s.status.busy = false →
    s.turns = .host (.writeFrame r c k byte) :: rest → r < 1080 → c < 1920 → k < 3 →
    ∃ t, step s = .next t ∧ t = { s with turns := rest, hostResult := none, frame := t.frame } ∧
      ∀ r' c' k', r' < 1080 → c' < 1920 → k' < 3 →
        t.frameByte r' c' k' = if r' = r ∧ c' = c ∧ k' = k then byte else s.frameByte r' c' k'

/-- R24, R29, R30, R186: `NPLANES` takes any value while the block is not busy; a write of `STATUS` or `LENGTH` is
ignored in every phase. -/
def Obligations.HostWritesRegisters : Prop :=
  ∀ (s : State) (v : Reg) (rest : List Turn),
    (s.turns = .host (.writeReg 1 v) :: rest → s.phase = .idle → s.status.busy = false →
      step s = .next { s with turns := rest, hostResult := none, nplanes := v }) ∧
    (s.turns = .host (.writeReg 2 v) :: rest ∨ s.turns = .host (.writeReg 3 v) :: rest →
      step s = .next { s with turns := rest, hostResult := none })

/-- R65, R204, R187, R180: a host write of `CMD`, `NPLANES`, `PLANE` or `FRAME` while busy is dropped and raises
`BusyViolation`; `FRAME` is unchanged where `ENCODE` was running, `OUT` where `COMPOSE` was. -/
def Obligations.HostWriteWhileBusyFaults : Prop :=
  ∀ (s : State) (m : HostMove) (rest : List Turn), s.turns = .host m :: rest → m.isOwnedWrite = true →
    m.isOffered = true → s.phase.isBusy = true → s.status.busy = true →
    ∃ t, step s = .next t ∧
      t = { s with
        turns := rest, hostResult := none, phase := .fault, length := 0,
        status := { busy := false, fault := true, outValid := false, faultCode := 5 },
        frame := t.frame, out := t.out, fresh := t.fresh } ∧
      (s.phase.isEncode = true → t.frame = s.frame) ∧ (s.phase = .compose → t.out = s.out)

/-- R186, R187, R207: after a fault every host write is ignored. -/
def Obligations.HostWritesIgnoredAfterFault : Prop :=
  ∀ (s : State) (m : HostMove) (rest : List Turn), s.turns = .host m :: rest → m.isOffered = true →
    m.isRead = false → m ≠ .assertReset → s.phase = .fault →
    step s = .next { s with turns := rest, hostResult := none }

/-- R28, R186, R29: register reads return 0 for `CMD` and the current value of the others, in every phase, and change
nothing. That the value is held in `hostResult` is the model's (log 2). -/
def Obligations.HostReadsRegisters : Prop :=
  ∀ (s : State) (number : Nat) (rest : List Turn), s.turns = .host (.readReg number) :: rest → number < 4 →
    step s = .next { s with
      turns := rest,
      hostResult := some (if number = 0 then 0 else if number = 1 then s.nplanes
        else if number = 2 then s.status.word else s.length) }

/-- R29: the bits of `STATUS`: 0 `BUSY`, 1 `FAULT`, 2 `OUT_VALID`, 7:4 `FAULT_CODE`; every other bit reads 0. -/
def Obligations.StatusWordLayout : Prop :=
  ∀ (st : Status) (i : Nat),
    st.word.getLsbD i =
      if i = 0 then st.busy else if i = 1 then st.fault else if i = 2 then st.outValid
      else if 4 ≤ i ∧ i ≤ 7 then st.faultCode.getLsbD (i - 4) else false

/-- R186: while the block is not busy, reads of `FRAME` and `OUT` return the byte and change nothing. -/
def Obligations.HostReadsStores : Prop :=
  ∀ (s : State) (rest : List Turn), s.status.busy = false →
    (∀ r c k, s.turns = .host (.readFrame r c k) :: rest → r < 1080 → c < 1920 → k < 3 →
      step s = .next { s with turns := rest, hostResult := some ((s.frameByte r c k).setWidth 32) }) ∧
    (∀ a, s.turns = .host (.readOut a) :: rest → a < 8296612 →
      step s = .next { s with turns := rest, hostResult := some ((s.outByte a).setWidth 32) })

/-- R61, R65: no read has a side effect, in any phase: it changes the returned value and, for the free value of a read
while busy, the model's draw counter (log 4), and nothing else. -/
def Obligations.ReadsHaveNoSideEffects : Prop :=
  ∀ (s : State) (m : HostMove) (rest : List Turn), s.turns = .host m :: rest → m.isRead = true →
    m.isOffered = true →
    ∃ t v, step s = .next t ∧ t = { s with turns := rest, hostResult := some v, fresh := t.fresh }

/-- R31, R59, R186: a transaction that does not exist is refused, one that exists always completes. -/
def Obligations.ExactlyOfferedTransactionsComplete : Prop :=
  ∀ (s : State) (m : HostMove) (rest : List Turn), s.turns = .host m :: rest →
    (m.isOffered = true → ∃ t, step s = .next t) ∧ (m.isOffered = false → ∃ r, step s = .refused r)

/-- R220, R36, R187: reset in any phase puts every register at its reset value; the stores' contents are unspecified,
under fillings not used before. What it leaves in the model's own fields is the model's choice (log 15, log 16). -/
def Obligations.ResetRestoresRegisters : Prop :=
  ∀ (s : State) (rest : List Turn), s.turns = .host .assertReset :: rest →
    ∃ t, step s = .next t ∧
      t = { State.reset with
        turns := rest, fresh := s.fresh + 3,
        plane := { gen := s.fresh, cells := [] }, frame := { gen := s.fresh + 1, cells := [] },
        out := { gen := s.fresh + 2, cells := [] } }

/-- R36: the registers after reset. -/
def Obligations.ResetValues : Prop :=
  State.reset.phase = .idle ∧ State.reset.row = 0 ∧ State.reset.col = 0 ∧ State.reset.n = 0 ∧
    State.reset.byteCount = 0 ∧ State.reset.nplanes = 0 ∧ State.reset.status.word = 0 ∧ State.reset.length = 0

/-! ## The machine -/

/-- R180, R97: when the next move is a host write of `CMD`, the step is the meaning of the command its value decodes
to, on the state with the move taken. -/
def Obligations.StepRunsTheWrittenCommand : Prop :=
  ∀ (s : State) (v : Reg) (rest : List Turn), s.turns = .host (.writeReg 0 v) :: rest →
    step s = exec (decodeCommand v) { s with turns := rest, hostResult := none }

/-- R40, R26: when the block has the turn and a step of `ENCODE` is enabled, the step is the meaning of its token, on
the state with the turn taken. -/
def Obligations.StepRunsTheSelectedToken : Prop :=
  ∀ (s : State) (i : Instr), s.blockTurn = true → s.nextToken = some i →
    step s = exec i { s with turns := s.turns.tail }

/-- R40, R187, R221: the block's turn in `P_IDLE` or `P_FAULT` changes nothing: no step is enabled. -/
def Obligations.IdleBlockRests : Prop :=
  ∀ s : State, s.blockTurn = true → s.phase = .idle ∨ s.phase = .fault →
    step s = .next { s with turns := s.turns.tail }

/-- R21, R22, R23, R24, R38: the block's own steps write neither `PLANE` nor `NPLANES`, write `FRAME` only in
`P_COMPOSE`, and write `OUT` only while `ENCODE` runs. -/
def Obligations.BlockWritesOnlyItsTargets : Prop :=
  ∀ s t : State, s.blockTurn = true → step s = .next t →
    t.plane = s.plane ∧ t.nplanes = s.nplanes ∧ (s.phase ≠ .compose → t.frame = s.frame) ∧
      (s.phase.isEncode = false → t.out = s.out)

/-- R29, R200: every step keeps `STATUS` in agreement with `PHASE`. -/
def Obligations.StepKeepsStatusInv : Prop :=
  ∀ s t : State, s.StatusInv → step s = .next t → t.StatusInv

/-- R21 to R23, R59: every step keeps the written locations of each store inside its extent. The other half, that the
list of written locations is strictly rising, is this model's form of a store and no rule of the spec (log 3). -/
def Obligations.StepKeepsStoresInv : Prop :=
  ∀ s t : State, s.StoresInv → step s = .next t → t.StoresInv

/-- R26, R150, R151: every step keeps the scan position inside the image and the byte count within its bound. -/
def Obligations.StepKeepsScanInv : Prop :=
  ∀ s t : State, s.ScanInv → step s = .next t → t.ScanInv

/-- R29, R30, R152: every step keeps what `OUT_VALID` and `LENGTH` claim. -/
def Obligations.StepKeepsLengthInv : Prop :=
  ∀ s t : State, s.ScanInv → s.LengthInv → step s = .next t → t.LengthInv

/-- R36: the invariants hold after reset. The canonical form among them is the model's (log 3), and so are the reset
values of the model's own fields (log 16). -/
def Obligations.ResetMeetsInvariants : Prop := State.reset.Inv

/-- R41, R59, R151: from a scan inside the image, a step with an offered transaction or the block's turn always
answers a next state: the block is never stuck and never forms an index outside a store. -/
def Obligations.MachineNeverStops : Prop :=
  ∀ s : State, s.ScanInv → (∀ m rest, s.turns = .host m :: rest → m.isOffered = true) → ∃ t, step s = .next t
end

