-- ==== Sys2Proof/Laws/Memory.lean ====
section
/-! SUPPORT. Stores: a read after a write gives the value written, a write leaves every other location alone, and
every store operation keeps the canonical form and the extent. -/

namespace Sys2Proof.Machine

variable {α : Type}

@[simp] theorem lookupCell_nil (index : Nat) : lookupCell index ([] : List (Nat × α)) = none := rfl

theorem lookupCell_insertCell (index other : Nat) (v : α) (cells : List (Nat × α)) :
    lookupCell other (insertCell index v cells) = if other = index then some v else lookupCell other cells := by
  induction cells with
  | nil =>
    by_cases h : other = index
    · simp [insertCell, lookupCell, h]
    · simp [insertCell, lookupCell, h, Ne.symm h]
  | cons cell rest ih =>
    obtain ⟨b, w⟩ := cell
    simp only [insertCell]
    split
    · by_cases h : other = index
      · simp [lookupCell, h]
      · simp [lookupCell, h, Ne.symm h]
    · split
      · rename_i h
        subst h
        by_cases h : other = index
        · simp [lookupCell, h]
        · simp [lookupCell, h, Ne.symm h]
      · simp only [lookupCell, ih]
        by_cases h : b = other
        · have : other ≠ index := by omega
          simp [h, this]
        · simp [h]

theorem Memory.read_write (free : Nat → Nat → α) (m : Memory α) (index other : Nat) (v : α) :
    (m.write index v).read free other = if other = index then v else m.read free other := by
  simp only [Memory.read, Memory.write, lookupCell_insertCell]
  by_cases h : other = index <;> simp [h]

theorem Memory.read_write_same (free : Nat → Nat → α) (m : Memory α) (index : Nat) (v : α) :
    (m.write index v).read free index = v := by simp [Memory.read_write]

theorem Memory.read_write_other (free : Nat → Nat → α) (m : Memory α) {index other : Nat} (v : α)
    (h : other ≠ index) : (m.write index v).read free other = m.read free other := by simp [Memory.read_write, h]

/-- What a store reads as after a sequence of values is written from an index on. -/
theorem Memory.read_writeAll (free : Nat → Nat → α) (dflt : α) (vs : List α) (m : Memory α) (index other : Nat) :
    (m.writeAll index vs).read free other =
      if index ≤ other ∧ other < index + vs.length then vs.getD (other - index) dflt else m.read free other := by
  induction vs generalizing m index with
  | nil =>
    have : ¬(index ≤ other ∧ other < index) := by omega
    simp [Memory.writeAll, this]
  | cons v rest ih =>
    simp only [Memory.writeAll, ih, Memory.read_write, List.length_cons]
    by_cases h : index + 1 ≤ other ∧ other < index + 1 + rest.length
    · have h' : index ≤ other ∧ other < index + (rest.length + 1) := by omega
      obtain ⟨j, hj⟩ : ∃ j, other - index = j + 1 := ⟨other - index - 1, by omega⟩
      have : other - (index + 1) = j := by omega
      simp [h, h', hj, this]
    · by_cases heq : other = index
      · simp [heq]
      · have h' : ¬(index ≤ other ∧ other < index + (rest.length + 1)) := by omega
        rw [if_neg h, if_neg heq, if_neg h']

/-- A filled store reads as its function inside the extent. -/
theorem lookupCell_map_range' (f : Nat → α) (index len : Nat) (start : Nat) :
    lookupCell index ((List.range' start len).map fun i => (i, f i)) =
      if start ≤ index ∧ index < start + len then some (f index) else none := by
  induction len generalizing start with
  | zero =>
    have : ¬(start ≤ index ∧ index < start) := by omega
    simp [this]
  | succ len ih =>
    simp only [List.range'_succ, List.map_cons, lookupCell, ih]
    by_cases h : start = index
    · simp [h]
    · have : (start + 1 ≤ index ∧ index < start + 1 + len) ↔ (start ≤ index ∧ index < start + (len + 1)) := by omega
      rw [if_neg h]
      simp only [this]

theorem Memory.read_fill (free : Nat → Nat → α) (m : Memory α) (size : Nat) (f : Nat → α) {index : Nat}
    (h : index < size) : (m.fill size f).read free index = f index := by
  simp [Memory.read, Memory.fill, List.range_eq_range', lookupCell_map_range', h]

@[simp] theorem Memory.read_unspecified (free : Nat → Nat → α) (gen index : Nat) :
    (Memory.unspecified gen : Memory α).read free index = free gen index := rfl

/-! ## The canonical form -/

theorem risingCells_cons (a : Nat) (v : α) (cells : List (Nat × α)) :
    risingCells ((a, v) :: cells) = true ↔ (∀ cell ∈ cells, a < cell.1) ∧ risingCells cells = true := by
  induction cells generalizing a v with
  | nil => simp [risingCells]
  | cons cell rest ih =>
    obtain ⟨b, w⟩ := cell
    simp only [risingCells, Bool.and_eq_true, decide_eq_true_eq, List.mem_cons, forall_eq_or_imp]
    rw [ih b w]
    constructor
    · rintro ⟨hab, hb, hr⟩
      exact ⟨⟨hab, fun cell hc => Nat.lt_trans hab (hb cell hc)⟩, hb, hr⟩
    · rintro ⟨⟨hab, _⟩, hb, hr⟩
      exact ⟨hab, hb, hr⟩

theorem mem_insertCell {index : Nat} {v : α} {cells : List (Nat × α)} {cell : Nat × α}
    (h : cell ∈ insertCell index v cells) : cell = (index, v) ∨ cell ∈ cells := by
  induction cells with
  | nil => simpa [insertCell] using h
  | cons head rest ih =>
    obtain ⟨b, w⟩ := head
    simp only [insertCell] at h
    split at h
    · simpa using h
    · split at h
      · rcases List.mem_cons.mp h with h | h
        · exact .inl h
        · exact .inr (List.mem_cons_of_mem _ h)
      · rcases List.mem_cons.mp h with h | h
        · exact .inr (h ▸ List.mem_cons_self)
        · rcases ih h with h | h
          · exact .inl h
          · exact .inr (List.mem_cons_of_mem _ h)

theorem risingCells_insertCell (index : Nat) (v : α) {cells : List (Nat × α)} (h : risingCells cells = true) :
    risingCells (insertCell index v cells) = true := by
  induction cells with
  | nil => simp [insertCell, risingCells]
  | cons head rest ih =>
    obtain ⟨b, w⟩ := head
    obtain ⟨hb, hr⟩ := (risingCells_cons b w rest).mp h
    simp only [insertCell]
    split
    · rename_i hlt
      refine (risingCells_cons _ _ _).mpr ⟨fun cell hc => ?_, h⟩
      rcases List.mem_cons.mp hc with rfl | hc
      · exact hlt
      · exact Nat.lt_trans hlt (hb cell hc)
    · split
      · rename_i heq
        exact (risingCells_cons _ _ _).mpr ⟨heq ▸ hb, hr⟩
      · refine (risingCells_cons _ _ _).mpr ⟨fun cell hc => ?_, ih hr⟩
        rcases mem_insertCell hc with rfl | hc
        · omega
        · exact hb cell hc

theorem Memory.wf_write (m : Memory α) (index : Nat) (v : α) (h : m.wf = true) : (m.write index v).wf = true :=
  risingCells_insertCell index v h

theorem Memory.wf_writeAll (vs : List α) (m : Memory α) (index : Nat) (h : m.wf = true) :
    (m.writeAll index vs).wf = true := by
  induction vs generalizing m index with
  | nil => exact h
  | cons v rest ih => exact ih _ _ (m.wf_write index v h)

theorem risingCells_map_range' (f : Nat → α) (start len : Nat) :
    risingCells ((List.range' start len).map fun i => (i, f i)) = true := by
  induction len generalizing start with
  | zero => rfl
  | succ len ih =>
    refine (risingCells_cons _ _ _).mpr ⟨fun cell hc => ?_, ih _⟩
    simp only [List.mem_map, List.mem_range'_1] at hc
    obtain ⟨i, hi, rfl⟩ := hc
    exact hi.1

theorem Memory.wf_fill (m : Memory α) (size : Nat) (f : Nat → α) : (m.fill size f).wf = true := by
  simp only [Memory.wf, Memory.fill, List.range_eq_range', risingCells_map_range']

@[simp] theorem Memory.wf_unspecified (gen : Nat) : (Memory.unspecified gen : Memory α).wf = true := rfl

theorem Memory.within_write {size index : Nat} (m : Memory α) (v : α) (hi : index < size)
    (h : m.within size = true) : (m.write index v).within size = true := by
  simp only [Memory.within, List.all_eq_true, decide_eq_true_eq] at h ⊢
  intro cell hc
  rcases mem_insertCell hc with rfl | hc
  · exact hi
  · exact h cell hc

theorem Memory.within_writeAll {size : Nat} (vs : List α) (m : Memory α) (index : Nat)
    (hi : index + vs.length ≤ size) (h : m.within size = true) : (m.writeAll index vs).within size = true := by
  induction vs generalizing m index with
  | nil => exact h
  | cons v rest ih =>
    simp only [List.length_cons] at hi
    exact ih _ _ (by omega) (m.within_write v (by omega) h)

theorem Memory.within_fill (m : Memory α) (size : Nat) (f : Nat → α) :
    (m.fill size f).within size = true := by
  simp [Memory.within, Memory.fill]

@[simp] theorem Memory.within_unspecified (size gen : Nat) :
    (Memory.unspecified gen : Memory α).within size = true := rfl

/-- The stores after reset are in canonical form. -/
theorem reset_stores_wf :
    State.reset.plane.wf = true ∧ State.reset.frame.wf = true ∧ State.reset.out.wf = true := ⟨rfl, rfl, rfl⟩

/-! ## Indices -/

/-- An index of `PLANE` is inside its extent. -/
theorem planeIndex_lt {p r c : Nat} (h : planeInside p r c = true) : planeIndex p r c < Config.planeSize := by
  simp only [planeInside, Bool.and_eq_true, decide_eq_true_eq, Config.maxPlanes, Config.height, Config.width] at h
  simp only [planeIndex, Config.planeSize, Config.maxPlanes, Config.height, Config.width]
  omega

/-- An index of `FRAME` is inside its extent. -/
theorem frameIndex_lt {r c k : Nat} (h : frameInside r c k = true) : frameIndex r c k < Config.frameSize := by
  simp only [frameInside, Bool.and_eq_true, decide_eq_true_eq, Config.height, Config.width, Config.channels] at h
  simp only [frameIndex, Config.frameSize, Config.height, Config.width, Config.channels]
  omega

/-- Different locations of `PLANE` have different indices. -/
theorem planeIndex_inj {p r c p' r' c' : Nat} (hr : r < Config.height) (hc : c < Config.width)
    (hr' : r' < Config.height) (hc' : c' < Config.width) (h : planeIndex p r c = planeIndex p' r' c') :
    p = p' ∧ r = r' ∧ c = c' := by
  simp only [planeIndex, Config.height, Config.width] at *
  omega

/-- Different locations of `FRAME` have different indices. -/
theorem frameIndex_inj {r c k r' c' k' : Nat} (hc : c < Config.width) (hk : k < Config.channels)
    (hc' : c' < Config.width) (hk' : k' < Config.channels) (h : frameIndex r c k = frameIndex r' c' k') :
    r = r' ∧ c = c' ∧ k = k' := by
  simp only [frameIndex, Config.width, Config.channels] at *
  omega

end Sys2Proof.Machine
end

