-- ==== Sys2Proof/Laws/Operands.lean ====
section
/-! SUPPORT. What the extents and the selection of a body step are (R133 to R140): every run is maximal, stays in its
row and covers at least one pixel. -/

namespace Sys2Proof.Machine

/-- An extent never exceeds its limit. -/
theorem extent_le (p : Nat → Bool) (limit k : Nat) : extent p limit k ≤ limit := by
  induction limit generalizing k with
  | zero => simp [extent]
  | succ limit ih =>
    simp only [extent]
    split
    · exact Nat.succ_le_succ (ih _)
    · omega

/-- The predicate holds on every column of an extent. -/
theorem extent_holds (p : Nat → Bool) {limit k j : Nat} (h : j < extent p limit k) : p (k + j) = true := by
  induction limit generalizing k j with
  | zero => simp [extent] at h
  | succ limit ih =>
    simp only [extent] at h
    split at h
    · cases j with
      | zero => simp [‹p k = true›]
      | succ j =>
        have := ih (k := k + 1) (j := j) (by omega)
        rwa [show k + 1 + j = k + (j + 1) by omega] at this
    · omega

/-- An extent stops at its limit or where the predicate fails. -/
theorem extent_stops (p : Nat → Bool) {limit k : Nat} (h : extent p limit k < limit) :
    p (k + extent p limit k) = false := by
  induction limit generalizing k with
  | zero => omega
  | succ limit ih =>
    simp only [extent] at h ⊢
    split at h
    · rename_i hp
      have := ih (k := k + 1) (by omega)
      simp only [hp, if_true]
      rwa [show k + 1 + extent p limit (k + 1) = k + (extent p limit (k + 1) + 1) by omega] at this
    · rename_i hp
      simp [hp]

/-- An extent is the only number of columns with these properties. -/
theorem extent_eq {p : Nat → Bool} {limit k m : Nat} (hm : m ≤ limit) (hp : ∀ j, j < m → p (k + j) = true)
    (hs : m = limit ∨ p (k + m) = false) : extent p limit k = m := by
  induction limit generalizing k m with
  | zero => simp [extent]; omega
  | succ limit ih =>
    cases m with
    | zero =>
      have : p k = false := by simpa using hs
      simp [extent, this]
    | succ m =>
      have h0 : p k = true := hp 0 (by omega)
      simp only [extent, h0, if_true, Nat.add_right_cancel_iff]
      refine ih (by omega) (fun j hj => ?_) ?_
      · have := hp (j + 1) (by omega)
        rwa [show k + 1 + j = k + (j + 1) by omega]
      · rcases hs with hs | hs
        · exact .inl (by omega)
        · exact .inr (by rwa [show k + 1 + m = k + (m + 1) by omega])

theorem vertical_iff {F : Image} {r k : Nat} :
    vertical F r k = true ↔ 0 < r ∧ k ≤ 1919 ∧ F r k = F (r - 1) k := by
  simp [vertical, and_assoc]

theorem horizontal_iff {F : Image} {r k : Nat} :
    horizontal F r k = true ↔ k + 1 ≤ 1919 ∧ F r k = F r (k + 1) := by simp [horizontal]

theorem literal_iff {F : Image} {r k : Nat} :
    literal F r k = true ↔ k ≤ 1919 ∧ vertical F r k = false ∧ horizontal F r k = false := by
  simp [literal, and_assoc]

@[simp] theorem pixelCount_vrepToken (n : Nat) : pixelCount (vrepToken n) = n := by
  unfold vrepToken; split <;> rfl

@[simp] theorem pixelCount_hrepToken (n : Nat) (p : Pixel) : pixelCount (hrepToken n p) = n := by
  unfold hrepToken
  split
  · rename_i h; simp [pixelCount, h]
  · split <;> rfl

@[simp] theorem pixelCount_litsToken (ps : List Pixel) : pixelCount (litsToken ps) = ps.length := by
  unfold litsToken; split <;> rfl

@[simp] theorem length_pixelsFrom (F : Image) (r c n : Nat) : (pixelsFrom F r c n).length = n := by
  simp [pixelsFrom]

theorem verticalCount_pos {F : Image} {r c : Nat} (h : vertical F r c = true) : 1 ≤ verticalCount F r c := by
  obtain ⟨_, hc, _⟩ := vertical_iff.mp h
  obtain ⟨m, hm⟩ : ∃ m, Config.width - c = m + 1 := ⟨Config.width - c - 1, by simp only [Config.width]; omega⟩
  simp [verticalCount, hm, extent, h]

theorem horizontalCount_ge {F : Image} {r c : Nat} (h : horizontal F r c = true) : 2 ≤ horizontalCount F r c := by
  obtain ⟨hc, he⟩ := horizontal_iff.mp h
  obtain ⟨m, hm⟩ : ∃ m, Config.width - c = m + 2 := ⟨Config.width - c - 2, by simp only [Config.width]; omega⟩
  simp [horizontalCount, hm, extent, he]

theorem literalCount_ge {F : Image} {r c : Nat} (h : literal F r c = true) (h' : literal F r (c + 1) = true) :
    2 ≤ literalCount F r c := by
  obtain ⟨hc, _⟩ := literal_iff.mp h'
  obtain ⟨m, hm⟩ : ∃ m, Config.width - c = m + 2 := ⟨Config.width - c - 2, by simp only [Config.width]; omega⟩
  simp [literalCount, hm, extent, h, h']

/-- The selection of R136, case by case, with the bounds of R149 and R150 on its count. -/
theorem selectToken_cases (F : Image) (r : Nat) {c : Nat} (hc : c < Config.width) :
    (vertical F r c = true ∧ 1 ≤ verticalCount F r c ∧ c + verticalCount F r c ≤ Config.width ∧
      selectToken F r c = vrepToken (verticalCount F r c)) ∨
    (vertical F r c = false ∧ horizontal F r c = true ∧ 2 ≤ horizontalCount F r c ∧
      c + horizontalCount F r c ≤ Config.width ∧ selectToken F r c = hrepToken (horizontalCount F r c) (F r c)) ∨
    (literal F r c = true ∧ literal F r (c + 1) = false ∧ selectToken F r c = .pix (F r c)) ∨
    (literal F r c = true ∧ literal F r (c + 1) = true ∧ 2 ≤ literalCount F r c ∧
      c + literalCount F r c ≤ Config.width ∧
      selectToken F r c = litsToken (pixelsFrom F r c (literalCount F r c))) := by
  have bound (p : Nat → Bool) : c + extent p (Config.width - c) c ≤ Config.width := by
    have := extent_le p (Config.width - c) c
    omega
  simp only [Config.width] at hc
  by_cases hv : vertical F r c = true
  · exact .inl ⟨hv, verticalCount_pos hv, bound _, by simp [selectToken, hv]⟩
  · have hv : vertical F r c = false := by simpa using hv
    by_cases hh : horizontal F r c = true
    · exact .inr (.inl ⟨hv, hh, horizontalCount_ge hh, bound _, by simp [selectToken, hv, hh]⟩)
    · have hh : horizontal F r c = false := by simpa using hh
      have hl : literal F r c = true := literal_iff.mpr ⟨by omega, hv, hh⟩
      by_cases hl' : literal F r (c + 1) = true
      · exact .inr (.inr (.inr ⟨hl, hl', literalCount_ge hl hl', bound _, by simp [selectToken, hv, hh, hl']⟩))
      · have hl' : literal F r (c + 1) = false := by simpa using hl'
        exact .inr (.inr (.inl ⟨hl, hl', by simp [selectToken, hv, hh, hl']⟩))

end Sys2Proof.Machine
end

