-- ==== Sys2Proof/Laws/State.lean ====
section
/-! SUPPORT. One lemma for each field of each named update of State, so that no proof unfolds a record update. -/

namespace Sys2Proof.Machine

variable (s : State)

/-! ## `append` -/

@[simp] theorem State.append_plane (bytes : List Byte) : (s.append bytes).plane = s.plane := rfl
@[simp] theorem State.append_frame (bytes : List Byte) : (s.append bytes).frame = s.frame := rfl
@[simp] theorem State.append_out (bytes : List Byte) : (s.append bytes).out = s.out.writeAll s.byteCount.toNat bytes := rfl
@[simp] theorem State.append_nplanes (bytes : List Byte) : (s.append bytes).nplanes = s.nplanes := rfl
@[simp] theorem State.append_status (bytes : List Byte) : (s.append bytes).status = s.status := rfl
@[simp] theorem State.append_length (bytes : List Byte) : (s.append bytes).length = s.length := rfl
@[simp] theorem State.append_phase (bytes : List Byte) : (s.append bytes).phase = s.phase := rfl
@[simp] theorem State.append_row (bytes : List Byte) : (s.append bytes).row = s.row := rfl
@[simp] theorem State.append_col (bytes : List Byte) : (s.append bytes).col = s.col := rfl
@[simp] theorem State.append_n (bytes : List Byte) : (s.append bytes).n = s.n := rfl
@[simp] theorem State.append_byteCount (bytes : List Byte) : (s.append bytes).byteCount = s.byteCount + BitVec.ofNat 32 bytes.length := rfl
@[simp] theorem State.append_turns (bytes : List Byte) : (s.append bytes).turns = s.turns := rfl
@[simp] theorem State.append_hostResult (bytes : List Byte) : (s.append bytes).hostResult = s.hostResult := rfl
@[simp] theorem State.append_fresh (bytes : List Byte) : (s.append bytes).fresh = s.fresh := rfl

/-! ## `advance` -/

@[simp] theorem State.advance_plane (k : Nat) : (s.advance k).plane = s.plane := rfl
@[simp] theorem State.advance_frame (k : Nat) : (s.advance k).frame = s.frame := rfl
@[simp] theorem State.advance_out (k : Nat) : (s.advance k).out = s.out := rfl
@[simp] theorem State.advance_nplanes (k : Nat) : (s.advance k).nplanes = s.nplanes := rfl
@[simp] theorem State.advance_status (k : Nat) : (s.advance k).status = s.status := rfl
@[simp] theorem State.advance_length (k : Nat) : (s.advance k).length = s.length := rfl
@[simp] theorem State.advance_phase (k : Nat) : (s.advance k).phase = s.phase := rfl
@[simp] theorem State.advance_row (k : Nat) : (s.advance k).row = s.row := rfl
@[simp] theorem State.advance_col (k : Nat) : (s.advance k).col = s.colAfter k := rfl
@[simp] theorem State.advance_n (k : Nat) : (s.advance k).n = BitVec.ofNat 11 k := rfl
@[simp] theorem State.advance_byteCount (k : Nat) : (s.advance k).byteCount = s.byteCount := rfl
@[simp] theorem State.advance_turns (k : Nat) : (s.advance k).turns = s.turns := rfl
@[simp] theorem State.advance_hostResult (k : Nat) : (s.advance k).hostResult = s.hostResult := rfl
@[simp] theorem State.advance_fresh (k : Nat) : (s.advance k).fresh = s.fresh := rfl

/-! ## `startCompose` -/

@[simp] theorem State.startCompose_plane : (s.startCompose).plane = s.plane := rfl
@[simp] theorem State.startCompose_frame : (s.startCompose).frame = s.frame := rfl
@[simp] theorem State.startCompose_out : (s.startCompose).out = s.out := rfl
@[simp] theorem State.startCompose_nplanes : (s.startCompose).nplanes = s.nplanes := rfl
@[simp] theorem State.startCompose_status : (s.startCompose).status = { s.status with busy := true } := rfl
@[simp] theorem State.startCompose_length : (s.startCompose).length = s.length := rfl
@[simp] theorem State.startCompose_phase : (s.startCompose).phase = .compose := rfl
@[simp] theorem State.startCompose_row : (s.startCompose).row = s.row := rfl
@[simp] theorem State.startCompose_col : (s.startCompose).col = s.col := rfl
@[simp] theorem State.startCompose_n : (s.startCompose).n = s.n := rfl
@[simp] theorem State.startCompose_byteCount : (s.startCompose).byteCount = s.byteCount := rfl
@[simp] theorem State.startCompose_turns : (s.startCompose).turns = s.turns := rfl
@[simp] theorem State.startCompose_hostResult : (s.startCompose).hostResult = s.hostResult := rfl
@[simp] theorem State.startCompose_fresh : (s.startCompose).fresh = s.fresh := rfl

/-! ## `startEncode` -/

@[simp] theorem State.startEncode_plane : (s.startEncode).plane = s.plane := rfl
@[simp] theorem State.startEncode_frame : (s.startEncode).frame = s.frame := rfl
@[simp] theorem State.startEncode_out : (s.startEncode).out = s.out := rfl
@[simp] theorem State.startEncode_nplanes : (s.startEncode).nplanes = s.nplanes := rfl
@[simp] theorem State.startEncode_status : (s.startEncode).status = { s.status with busy := true, outValid := false } := rfl
@[simp] theorem State.startEncode_length : (s.startEncode).length = 0 := rfl
@[simp] theorem State.startEncode_phase : (s.startEncode).phase = .header := rfl
@[simp] theorem State.startEncode_row : (s.startEncode).row = s.row := rfl
@[simp] theorem State.startEncode_col : (s.startEncode).col = s.col := rfl
@[simp] theorem State.startEncode_n : (s.startEncode).n = s.n := rfl
@[simp] theorem State.startEncode_byteCount : (s.startEncode).byteCount = s.byteCount := rfl
@[simp] theorem State.startEncode_turns : (s.startEncode).turns = s.turns := rfl
@[simp] theorem State.startEncode_hostResult : (s.startEncode).hostResult = s.hostResult := rfl
@[simp] theorem State.startEncode_fresh : (s.startEncode).fresh = s.fresh := rfl

/-! ## `finishCompose` -/

@[simp] theorem State.finishCompose_plane : (s.finishCompose).plane = s.plane := rfl
@[simp] theorem State.finishCompose_frame : (s.finishCompose).frame = s.frame := rfl
@[simp] theorem State.finishCompose_out : (s.finishCompose).out = s.out := rfl
@[simp] theorem State.finishCompose_nplanes : (s.finishCompose).nplanes = s.nplanes := rfl
@[simp] theorem State.finishCompose_status : (s.finishCompose).status = { s.status with busy := false } := rfl
@[simp] theorem State.finishCompose_length : (s.finishCompose).length = s.length := rfl
@[simp] theorem State.finishCompose_phase : (s.finishCompose).phase = .idle := rfl
@[simp] theorem State.finishCompose_row : (s.finishCompose).row = s.row := rfl
@[simp] theorem State.finishCompose_col : (s.finishCompose).col = s.col := rfl
@[simp] theorem State.finishCompose_n : (s.finishCompose).n = s.n := rfl
@[simp] theorem State.finishCompose_byteCount : (s.finishCompose).byteCount = s.byteCount := rfl
@[simp] theorem State.finishCompose_turns : (s.finishCompose).turns = s.turns := rfl
@[simp] theorem State.finishCompose_hostResult : (s.finishCompose).hostResult = s.hostResult := rfl
@[simp] theorem State.finishCompose_fresh : (s.finishCompose).fresh = s.fresh := rfl

/-! ## `finishEncode` -/

@[simp] theorem State.finishEncode_plane : (s.finishEncode).plane = s.plane := rfl
@[simp] theorem State.finishEncode_frame : (s.finishEncode).frame = s.frame := rfl
@[simp] theorem State.finishEncode_out : (s.finishEncode).out = s.out := rfl
@[simp] theorem State.finishEncode_nplanes : (s.finishEncode).nplanes = s.nplanes := rfl
@[simp] theorem State.finishEncode_status : (s.finishEncode).status = { s.status with busy := false, outValid := true } := rfl
@[simp] theorem State.finishEncode_length : (s.finishEncode).length = s.byteCount := rfl
@[simp] theorem State.finishEncode_phase : (s.finishEncode).phase = .idle := rfl
@[simp] theorem State.finishEncode_row : (s.finishEncode).row = s.row := rfl
@[simp] theorem State.finishEncode_col : (s.finishEncode).col = s.col := rfl
@[simp] theorem State.finishEncode_n : (s.finishEncode).n = s.n := rfl
@[simp] theorem State.finishEncode_byteCount : (s.finishEncode).byteCount = s.byteCount := rfl
@[simp] theorem State.finishEncode_turns : (s.finishEncode).turns = s.turns := rfl
@[simp] theorem State.finishEncode_hostResult : (s.finishEncode).hostResult = s.hostResult := rfl
@[simp] theorem State.finishEncode_fresh : (s.finishEncode).fresh = s.fresh := rfl

/-! ## `returning` -/

@[simp] theorem State.returning_plane (v : Reg) : (s.returning v).plane = s.plane := rfl
@[simp] theorem State.returning_frame (v : Reg) : (s.returning v).frame = s.frame := rfl
@[simp] theorem State.returning_out (v : Reg) : (s.returning v).out = s.out := rfl
@[simp] theorem State.returning_nplanes (v : Reg) : (s.returning v).nplanes = s.nplanes := rfl
@[simp] theorem State.returning_status (v : Reg) : (s.returning v).status = s.status := rfl
@[simp] theorem State.returning_length (v : Reg) : (s.returning v).length = s.length := rfl
@[simp] theorem State.returning_phase (v : Reg) : (s.returning v).phase = s.phase := rfl
@[simp] theorem State.returning_row (v : Reg) : (s.returning v).row = s.row := rfl
@[simp] theorem State.returning_col (v : Reg) : (s.returning v).col = s.col := rfl
@[simp] theorem State.returning_n (v : Reg) : (s.returning v).n = s.n := rfl
@[simp] theorem State.returning_byteCount (v : Reg) : (s.returning v).byteCount = s.byteCount := rfl
@[simp] theorem State.returning_turns (v : Reg) : (s.returning v).turns = s.turns := rfl
@[simp] theorem State.returning_hostResult (v : Reg) : (s.returning v).hostResult = some v := rfl
@[simp] theorem State.returning_fresh (v : Reg) : (s.returning v).fresh = s.fresh := rfl

/-! ## `endRow` -/

@[simp] theorem endRow_plane : (endRow s).plane = s.plane := rfl
@[simp] theorem endRow_frame : (endRow s).frame = s.frame := rfl
@[simp] theorem endRow_out : (endRow s).out = s.out := rfl
@[simp] theorem endRow_nplanes : (endRow s).nplanes = s.nplanes := rfl
@[simp] theorem endRow_status : (endRow s).status = s.status := rfl
@[simp] theorem endRow_length : (endRow s).length = s.length := rfl
@[simp] theorem endRow_phase : (endRow s).phase = (if s.row + 1 = BitVec.ofNat 11 Config.height then Phase.eoi else s.phase) := rfl
@[simp] theorem endRow_row : (endRow s).row = s.row + 1 := rfl
@[simp] theorem endRow_col : (endRow s).col = 0 := rfl
@[simp] theorem endRow_n : (endRow s).n = s.n := rfl
@[simp] theorem endRow_byteCount : (endRow s).byteCount = s.byteCount := rfl
@[simp] theorem endRow_turns : (endRow s).turns = s.turns := rfl
@[simp] theorem endRow_hostResult : (endRow s).hostResult = s.hostResult := rfl
@[simp] theorem endRow_fresh : (endRow s).fresh = s.fresh := rfl

/-! ## `resetBlock` -/

@[simp] theorem State.resetBlock_plane : s.resetBlock.plane = Memory.unspecified s.fresh := rfl
@[simp] theorem State.resetBlock_frame : s.resetBlock.frame = Memory.unspecified (s.fresh + 1) := rfl
@[simp] theorem State.resetBlock_out : s.resetBlock.out = Memory.unspecified (s.fresh + 2) := rfl
@[simp] theorem State.resetBlock_nplanes : s.resetBlock.nplanes = 0 := rfl
@[simp] theorem State.resetBlock_status : s.resetBlock.status = { busy := false, fault := false, outValid := false, faultCode := 0 } := rfl
@[simp] theorem State.resetBlock_length : s.resetBlock.length = 0 := rfl
@[simp] theorem State.resetBlock_phase : s.resetBlock.phase = .idle := rfl
@[simp] theorem State.resetBlock_row : s.resetBlock.row = 0 := rfl
@[simp] theorem State.resetBlock_col : s.resetBlock.col = 0 := rfl
@[simp] theorem State.resetBlock_n : s.resetBlock.n = 0 := rfl
@[simp] theorem State.resetBlock_byteCount : s.resetBlock.byteCount = 0 := rfl
@[simp] theorem State.resetBlock_turns : s.resetBlock.turns = s.turns := rfl
@[simp] theorem State.resetBlock_hostResult : s.resetBlock.hostResult = none := rfl
@[simp] theorem State.resetBlock_fresh : s.resetBlock.fresh = s.fresh + 3 := rfl

/-! ## `spoilTarget` and `takeFault` -/

@[simp] theorem State.spoilTarget_plane (f : FaultCause) : (s.spoilTarget f).plane = s.plane := by
  unfold State.spoilTarget; split <;> [rfl; (split <;> rfl)]
@[simp] theorem State.spoilTarget_nplanes (f : FaultCause) : (s.spoilTarget f).nplanes = s.nplanes := by
  unfold State.spoilTarget; split <;> [rfl; (split <;> rfl)]
@[simp] theorem State.spoilTarget_status (f : FaultCause) : (s.spoilTarget f).status = s.status := by
  unfold State.spoilTarget; split <;> [rfl; (split <;> rfl)]
@[simp] theorem State.spoilTarget_length (f : FaultCause) : (s.spoilTarget f).length = s.length := by
  unfold State.spoilTarget; split <;> [rfl; (split <;> rfl)]
@[simp] theorem State.spoilTarget_phase (f : FaultCause) : (s.spoilTarget f).phase = s.phase := by
  unfold State.spoilTarget; split <;> [rfl; (split <;> rfl)]
@[simp] theorem State.spoilTarget_row (f : FaultCause) : (s.spoilTarget f).row = s.row := by
  unfold State.spoilTarget; split <;> [rfl; (split <;> rfl)]
@[simp] theorem State.spoilTarget_col (f : FaultCause) : (s.spoilTarget f).col = s.col := by
  unfold State.spoilTarget; split <;> [rfl; (split <;> rfl)]
@[simp] theorem State.spoilTarget_n (f : FaultCause) : (s.spoilTarget f).n = s.n := by
  unfold State.spoilTarget; split <;> [rfl; (split <;> rfl)]
@[simp] theorem State.spoilTarget_byteCount (f : FaultCause) : (s.spoilTarget f).byteCount = s.byteCount := by
  unfold State.spoilTarget; split <;> [rfl; (split <;> rfl)]
@[simp] theorem State.spoilTarget_turns (f : FaultCause) : (s.spoilTarget f).turns = s.turns := by
  unfold State.spoilTarget; split <;> [rfl; (split <;> rfl)]
@[simp] theorem State.spoilTarget_hostResult (f : FaultCause) : (s.spoilTarget f).hostResult = s.hostResult := by
  unfold State.spoilTarget; split <;> [rfl; (split <;> rfl)]

@[simp] theorem State.takeFault_plane (f : FaultCause) : (s.takeFault f).plane = s.plane := State.spoilTarget_plane s f
@[simp] theorem State.takeFault_nplanes (f : FaultCause) : (s.takeFault f).nplanes = s.nplanes := State.spoilTarget_nplanes s f
@[simp] theorem State.takeFault_status (f : FaultCause) : (s.takeFault f).status = { busy := false, fault := true, outValid := false, faultCode := f.code } := rfl
@[simp] theorem State.takeFault_length (f : FaultCause) : (s.takeFault f).length = 0 := rfl
@[simp] theorem State.takeFault_phase (f : FaultCause) : (s.takeFault f).phase = .fault := rfl
@[simp] theorem State.takeFault_row (f : FaultCause) : (s.takeFault f).row = s.row := State.spoilTarget_row s f
@[simp] theorem State.takeFault_col (f : FaultCause) : (s.takeFault f).col = s.col := State.spoilTarget_col s f
@[simp] theorem State.takeFault_n (f : FaultCause) : (s.takeFault f).n = s.n := State.spoilTarget_n s f
@[simp] theorem State.takeFault_byteCount (f : FaultCause) : (s.takeFault f).byteCount = s.byteCount := State.spoilTarget_byteCount s f
@[simp] theorem State.takeFault_turns (f : FaultCause) : (s.takeFault f).turns = s.turns := State.spoilTarget_turns s f
@[simp] theorem State.takeFault_hostResult (f : FaultCause) : (s.takeFault f).hostResult = s.hostResult := State.spoilTarget_hostResult s f

/-- `OUT` after a fault (R187). -/
theorem State.takeFault_out (f : FaultCause) :
    (s.takeFault f).out = if s.phase.isEncode then Memory.unspecified s.fresh else s.out := by
  unfold State.takeFault State.spoilTarget
  split
  · simp
  · split <;> rfl

/-- `FRAME` after a fault (R187). -/
theorem State.takeFault_frame (f : FaultCause) :
    (s.takeFault f).frame =
      if s.phase = .compose ∧ f = .busyViolation then Memory.unspecified s.fresh else s.frame := by
  unfold State.takeFault State.spoilTarget
  split
  · rename_i h
    have : s.phase ≠ .compose := by intro hp; simp [hp, Phase.isEncode] at h
    simp [this]
  · split <;> rfl

/-! ## `afterFetch` -/

@[simp] theorem State.afterFetch_plane : s.afterFetch.plane = s.plane := by
  unfold State.afterFetch; split <;> rfl
@[simp] theorem State.afterFetch_frame : s.afterFetch.frame = s.frame := by
  unfold State.afterFetch; split <;> rfl
@[simp] theorem State.afterFetch_out : s.afterFetch.out = s.out := by
  unfold State.afterFetch; split <;> rfl
@[simp] theorem State.afterFetch_nplanes : s.afterFetch.nplanes = s.nplanes := by
  unfold State.afterFetch; split <;> rfl
@[simp] theorem State.afterFetch_status : s.afterFetch.status = s.status := by
  unfold State.afterFetch; split <;> rfl
@[simp] theorem State.afterFetch_length : s.afterFetch.length = s.length := by
  unfold State.afterFetch; split <;> rfl
@[simp] theorem State.afterFetch_phase : s.afterFetch.phase = s.phase := by
  unfold State.afterFetch; split <;> rfl
@[simp] theorem State.afterFetch_row : s.afterFetch.row = s.row := by
  unfold State.afterFetch; split <;> rfl
@[simp] theorem State.afterFetch_col : s.afterFetch.col = s.col := by
  unfold State.afterFetch; split <;> rfl
@[simp] theorem State.afterFetch_n : s.afterFetch.n = s.n := by
  unfold State.afterFetch; split <;> rfl
@[simp] theorem State.afterFetch_byteCount : s.afterFetch.byteCount = s.byteCount := by
  unfold State.afterFetch; split <;> rfl
@[simp] theorem State.afterFetch_fresh : s.afterFetch.fresh = s.fresh := by
  unfold State.afterFetch; split <;> rfl

@[simp] theorem State.afterFetch_turns : s.afterFetch.turns = s.turns.tail := by
  unfold State.afterFetch
  split
  · rename_i h; simp [h]
  · rename_i h; simp [h]
  · rename_i h; simp [h]

/-! ## Views of a state that depend on few fields -/

theorem State.px_congr {s t : State} (h : t.frame = s.frame) : t.px = s.px := by
  funext r c
  simp [State.px, State.frameByte, h]

@[simp] theorem State.afterFetch_px : s.afterFetch.px = s.px := State.px_congr (by simp)

theorem State.outByte_congr {s t : State} (h : t.out = s.out) (a : Nat) : t.outByte a = s.outByte a := by
  simp [State.outByte, h]

/-- The next token depends on the phase, the scan position, the byte count and the frame only (R26). -/
theorem State.nextToken_congr {s t : State} (hp : t.phase = s.phase) (hr : t.row = s.row) (hc : t.col = s.col)
    (hb : t.byteCount = s.byteCount) (hf : t.frame = s.frame) : t.nextToken = s.nextToken := by
  simp [State.nextToken, hp, hr, hc, hb, State.px_congr hf]

@[simp] theorem State.afterFetch_nextToken : s.afterFetch.nextToken = s.nextToken :=
  State.nextToken_congr (by simp) (by simp) (by simp) (by simp) (by simp)

end Sys2Proof.Machine
end

