-- ==== Sys2Proof/Laws/Ops.lean ====
section
/-! SUPPORT. For each shared operation, once, everything it can do. -/

namespace Sys2Proof.Machine

variable {s t : State}

/-- `emit` with room answers the rest of the step; without room the model stops. -/
theorem emitThen_of_fits {bytes : List Byte} {after : State → State}
    (h : s.byteCount.toNat + bytes.length ≤ Config.outCap) :
    emitThen bytes after s = .next (after (s.append bytes)) := if_pos h

/-- What `emit` can answer. -/
theorem emitThen_cases {bytes : List Byte} {after : State → State} (h : emitThen bytes after s = .next t) :
    s.byteCount.toNat + bytes.length ≤ Config.outCap ∧ t = after (s.append bytes) := by
  unfold emitThen at h
  split at h
  · exact ⟨‹_›, by simpa using h.symm⟩
  · cases h

/-- `emit` never refuses. -/
theorem emitThen_ne_refused {bytes : List Byte} {after : State → State} {r : Refusal} :
    emitThen bytes after s ≠ .refused r := by
  unfold emitThen
  split <;> simp

/-- The byte count after `emit`, as a number. -/
theorem State.append_byteCount_toNat {bytes : List Byte}
    (h : s.byteCount.toNat + bytes.length ≤ Config.outCap) :
    (s.append bytes).byteCount.toNat = s.byteCount.toNat + bytes.length := by
  simp only [Config.outCap] at h
  simp [BitVec.toNat_add, BitVec.toNat_ofNat]
  omega

/-- The bytes of `OUT` after `emit`. -/
theorem State.append_written (bytes : List Byte) : OutWritten s (s.append bytes) s.byteCount.toNat bytes := by
  intro x
  exact Memory.read_writeAll _ 0 bytes s.out _ x

/-- The gate of every host write (R180, R186). -/
theorem hostWrite_cases {effect : State → State} (h : hostWrite effect s = .next t) :
    (s.phase = .fault ∧ t = s) ∨
    (s.phase ≠ .fault ∧ s.status.busy = true ∧ t = s.takeFault .busyViolation) ∨
    (s.phase ≠ .fault ∧ s.status.busy = false ∧ t = effect s) := by
  unfold hostWrite at h
  split at h
  · exact .inl ⟨‹_›, by simpa using h.symm⟩
  · split at h
    · exact .inr (.inl ⟨‹_›, ‹_›, by simpa using h.symm⟩)
    · rename_i hp hb
      exact .inr (.inr ⟨hp, by simpa using hb, by simpa using h.symm⟩)

/-- A host write always completes. -/
theorem hostWrite_next (effect : State → State) (s : State) : ∃ t, hostWrite effect s = .next t := by
  unfold hostWrite
  split
  · exact ⟨_, rfl⟩
  · split <;> exact ⟨_, rfl⟩

theorem hostWrite_in_fault {effect : State → State} (h : s.phase = .fault) : hostWrite effect s = .next s :=
  if_pos h

theorem hostWrite_when_busy {effect : State → State} (h : s.phase ≠ .fault) (hb : s.status.busy = true) :
    hostWrite effect s = .next (s.takeFault .busyViolation) := by simp [hostWrite, h, hb]

theorem hostWrite_when_free {effect : State → State} (h : s.phase ≠ .fault) (hb : s.status.busy = false) :
    hostWrite effect s = .next (effect s) := by simp [hostWrite, h, hb]

/-- A host read of a byte: only the returned value changes, and the draw counter while busy (R61, R65). -/
theorem hostReadByte_cases {byte : Byte} (h : hostReadByte byte s = .next t) :
    (s.status.busy = true ∧
      t = { s with hostResult := some ((Config.busyReadByte s.fresh).setWidth 32), fresh := s.fresh + 1 }) ∨
    (s.status.busy = false ∧ t = { s with hostResult := some (byte.setWidth 32) }) := by
  unfold hostReadByte at h
  split at h
  · exact .inl ⟨‹_›, by simpa [State.returning] using h.symm⟩
  · rename_i hb
    exact .inr ⟨by simpa using hb, by simpa [State.returning] using h.symm⟩

theorem whenSelected_of_selected {i : Instr} {run : State → Host.Outcome State Fault Refusal}
    (h : s.nextToken = some i) : whenSelected i s run = run s := if_pos h

theorem whenSelected_of_not {i : Instr} {run : State → Host.Outcome State Fault Refusal}
    (h : s.nextToken ≠ some i) : whenSelected i s run = .refused .tokenNotSelected := if_neg h

/-- A token's step that completes is the enabled one. -/
theorem whenSelected_cases {i : Instr} {run : State → Host.Outcome State Fault Refusal}
    (h : whenSelected i s run = .next t) : s.nextToken = some i ∧ run s = .next t := by
  unfold whenSelected at h
  split at h
  · exact ⟨‹_›, h⟩
  · cases h

/-- What a body step can do: emit and move on, or the stall guard (R141). -/
theorem bodyStep_cases {i : Instr} (h : bodyStep i s = .next t) :
    (s.col < s.colAfter (pixelCount i) ∧ s.byteCount.toNat + (tokenBytes i).length ≤ Config.outCap ∧
      t = (s.append (tokenBytes i)).advance (pixelCount i)) ∨
    (¬s.col < s.colAfter (pixelCount i) ∧ t = s.takeFault (.codecStallGuard s.row s.col)) := by
  unfold bodyStep at h
  split at h
  · obtain ⟨hfit, ht⟩ := emitThen_cases h
    exact .inl ⟨‹_›, hfit, ht⟩
  · exact .inr ⟨‹_›, by simpa using h.symm⟩

/-- The header bytes always pack (R115). -/
theorem headerBytes_zero : headerBytes 0 = .ok [0x53, 0x70, 0x6C, 0x64, 0x80, 0x07, 0x38, 0x04, 0x00, 0x00, 0x00,
    0x00, 0xFF, 0xFF, 0xFF, 0xFF, 0xFF, 0xFF, 0xFF, 0xFF, 0x00, 0x00, 0x00, 0x00, 0x00, 0x02, 0x01, 0x00, 0x00,
    0x00, 0x00, 0x00, 0x00, 0x00, 0x00, 0x00, 0x00, 0x00, 0x00, 0x00, 0x00, 0x00, 0x00, 0x00, 0x00, 0x00, 0x00,
    0x00] := by decide

end Sys2Proof.Machine
end

