-- ==== Sys2Proof/Laws/PerInstr.lean ====
section
/-! SUPPORT. Statements about every instruction as syntax, one lemma for each constructor. The family `TokenLength`:
the number of bytes of a token (R94). -/

namespace Sys2Proof.Laws

/-- The length of `cnt(n)` (R86). -/
theorem length_countBytes (n : Nat) : (countBytes n).length = if n ≤ 127 then 1 else 2 := by
  unfold countBytes
  by_cases h : n < 128
  · rw [if_pos h, if_pos (by omega)]; rfl
  · rw [if_neg h, if_neg (by omega)]; rfl

/-- The length of a literal payload is three bytes for each pixel (R85). -/
theorem length_payload (ps : List Pixel) : (ps.flatMap pixelBytes).length = 3 * ps.length := by
  induction ps with
  | nil => rfl
  | cons p ps ih =>
    simp only [List.flatMap_cons, List.length_append, ih, List.length_cons]
    simp [pixelBytes]
    omega

/-- The header is 48 bytes long whatever its length field is (R80). -/
theorem length_header (len : Reg) : (tokenBytes (.hdr len)).length = 48 := by
  have hl : ¬((len.toNat : Int) < 0 ∨ ((2 ^ 32 : Nat) : Int) ≤ (len.toNat : Int)) := by
    have := len.isLt
    omega
  have hlen (bits : List Bool) (h : bits.length = 32) : (Machine.toBytes bits).length = 4 := by
    match bits, h with
    | [a1, a2, a3, a4, a5, a6, a7, a8, b1, b2, b3, b4, b5, b6, b7, b8, c1, c2, c3, c4, c5, c6, c7, c8, d1, d2, d3, d4,
        d5, d6, d7, d8], _ => simp [Machine.toBytes, Machine.splitBytes]
  have hw : Machine.le16 Config.width = .ok [0x80, 0x07] := by decide
  have hh : Machine.le16 Config.height = .ok [0x38, 0x04] := by decide
  simp only [tokenBytes, headerBytes, hw, hh, Machine.le32, Machine.pack, Machine.toBits, if_neg hl,
    List.length_append]
  rw [hlen _ (by simp)]
  rfl

/-- The length of a token by R94, and 0 for a command. -/
def TokenLength.expected : Instr → Nat
  | .hdr _ => 48
  | .vrepS _ => 3
  | .vrepL _ => 4
  | .pix _ => 4
  | .hrepS _ _ => 4
  | .hrepL _ _ => 5
  | .litsS ps => 2 + 3 * ps.length
  | .litsL ps => 3 + 3 * ps.length
  | .eol => 2
  | .eoi => 3
  | .pad => 1
  | .nop => 0
  | .compose => 0
  | .encode => 0
  | .reserved _ => 0

/-- A well-formed instruction's token has the length of R94. -/
def TokenLength.Statement (i : Instr) : Prop :=
  i.WellFormed → (tokenBytes i).length = TokenLength.expected i

theorem TokenLength.hdr (len : Reg) : TokenLength.Statement (.hdr len) := fun _ => length_header len

theorem TokenLength.vrepS (n : Nat) : TokenLength.Statement (.vrepS n) := by
  intro h
  simp [Instr.WellFormed, Instr.wellFormed] at h
  simp [tokenBytes, TokenLength.expected, length_countBytes, h]

theorem TokenLength.vrepL (n : Nat) : TokenLength.Statement (.vrepL n) := by
  intro h
  simp [Instr.WellFormed, Instr.wellFormed] at h
  have : ¬n ≤ 127 := by omega
  simp [tokenBytes, TokenLength.expected, length_countBytes, this]

theorem TokenLength.pix (p : Pixel) : TokenLength.Statement (.pix p) := fun _ => rfl

theorem TokenLength.hrepS (n : Nat) (p : Pixel) : TokenLength.Statement (.hrepS n p) := by
  intro h
  simp [Instr.WellFormed, Instr.wellFormed] at h
  simp [tokenBytes, TokenLength.expected, length_countBytes, pixelBytes, h]

theorem TokenLength.hrepL (n : Nat) (p : Pixel) : TokenLength.Statement (.hrepL n p) := by
  intro h
  simp [Instr.WellFormed, Instr.wellFormed] at h
  have : ¬n ≤ 127 := by omega
  simp [tokenBytes, TokenLength.expected, length_countBytes, pixelBytes, this]

theorem TokenLength.litsS (ps : List Pixel) : TokenLength.Statement (.litsS ps) := by
  intro h
  simp only [Instr.WellFormed, Instr.wellFormed, Config.shortCountMax, decide_eq_true_eq] at h
  simp only [tokenBytes, TokenLength.expected, List.length_append, length_countBytes, length_payload, if_pos h.2,
    List.length_singleton]

theorem TokenLength.litsL (ps : List Pixel) : TokenLength.Statement (.litsL ps) := by
  intro h
  simp only [Instr.WellFormed, Instr.wellFormed, Config.shortCountMax, Config.width, decide_eq_true_eq] at h
  have : ¬ps.length ≤ 127 := by omega
  simp only [tokenBytes, TokenLength.expected, List.length_append, length_countBytes, length_payload, if_neg this,
    List.length_singleton]

theorem TokenLength.eol : TokenLength.Statement .eol := fun _ => rfl

theorem TokenLength.eoi : TokenLength.Statement .eoi := fun _ => rfl

theorem TokenLength.pad : TokenLength.Statement .pad := fun _ => rfl

theorem TokenLength.nop : TokenLength.Statement .nop := fun _ => rfl

theorem TokenLength.compose : TokenLength.Statement .compose := fun _ => rfl

theorem TokenLength.encode : TokenLength.Statement .encode := fun _ => rfl

theorem TokenLength.reserved (v : Reg) : TokenLength.Statement (.reserved v) := fun _ => rfl

end Sys2Proof.Laws
end

