-- ==== Sys2Proof/Laws/Step.lean ====
section
/-! SUPPORT. Everything a step can do, once: which actions the fetch gives, and what each token's meaning answers. -/

namespace Sys2Proof.Machine

variable {s t : State}

/-- The fetch in a state whose next move is the block's (R233: also when no move is listed). -/
theorem State.fetch_blockTurn (h : s.blockTurn = true) : s.fetch = s.afterFetch.blockAction := by
  unfold State.blockTurn at h
  unfold State.fetch
  split <;> simp_all

/-- The fetch of a host move. -/
theorem State.fetch_host {m : HostMove} {rest : List Turn} (h : s.turns = .host m :: rest) :
    s.fetch = hostAction m := by simp [State.fetch, h]

/-- What a host move is: a `CMD` write is a command, everything else a transaction (R97, R180, R186). -/
theorem hostAction_cases (m : HostMove) :
    (∃ v, m = .writeReg 0 v ∧ hostAction m = .instr (decodeCommand v)) ∨
    ((∀ v, m ≠ .writeReg 0 v) ∧ hostAction m = .transact m) := by
  unfold hostAction
  split
  · exact .inl ⟨_, rfl, rfl⟩
  · exact .inr ⟨by simpa using ‹∀ v, _›, rfl⟩

/-- The block's action when a token is selected. -/
theorem State.blockAction_of_token {i : Instr} (h : s.nextToken = some i) : s.blockAction = .instr i := by
  simp [State.blockAction, h]

/-- A token is selected only in the phases of a running `ENCODE`. -/
theorem State.nextToken_phase {i : Instr} (h : s.nextToken = some i) : s.phase.isEncode = true := by
  unfold State.nextToken at h
  split at h <;> simp_all [Phase.isEncode]

/-- Everything the block's turn can do. -/
theorem step_block_cases (hb : s.blockTurn = true) (h : step s = .next t) :
    (∃ i, s.nextToken = some i ∧ exec i s.afterFetch = .next t) ∨
    (s.phase = .compose ∧ composeStep s.afterFetch = .next t) ∨
    ((s.phase = .idle ∨ s.phase = .fault) ∧ t = s.afterFetch) := by
  unfold step at h
  rw [State.fetch_blockTurn hb] at h
  unfold State.blockAction at h
  rw [State.afterFetch_nextToken] at h
  cases hn : s.nextToken with
  | some i => exact .inl ⟨i, rfl, by simpa [hn] using h⟩
  | none =>
    simp only [hn, State.afterFetch_phase] at h
    cases hp : s.phase with
    | idle => exact .inr (.inr ⟨.inl rfl, by simpa [hp] using h.symm⟩)
    | compose => exact .inr (.inl ⟨rfl, by simpa [hp] using h⟩)
    | header => simp [State.nextToken, hp] at hn
    | body => simp [hp] at h
    | eoi => simp [State.nextToken, hp] at hn
    | pad => simp [State.nextToken, hp] at hn
    | patch => simp [State.nextToken, hp] at hn
    | fault => exact .inr (.inr ⟨.inr rfl, by simpa [hp] using h.symm⟩)

/-- Everything a step can do: a host move, or the block's turn. -/
theorem step_cases (h : step s = .next t) :
    (∃ v rest, s.turns = .host (.writeReg 0 v) :: rest ∧ exec (decodeCommand v) s.afterFetch = .next t) ∨
    (∃ m rest, s.turns = .host m :: rest ∧ (∀ v, m ≠ .writeReg 0 v) ∧
      hostTransact m s.afterFetch = .next t) ∨
    (s.blockTurn = true ∧
      ((∃ i, s.nextToken = some i ∧ exec i s.afterFetch = .next t) ∨
        (s.phase = .compose ∧ composeStep s.afterFetch = .next t) ∨
        ((s.phase = .idle ∨ s.phase = .fault) ∧ t = s.afterFetch))) := by
  cases hb : s.blockTurn with
  | true => exact .inr (.inr ⟨rfl, step_block_cases hb h⟩)
  | false =>
    obtain ⟨m, rest, hm⟩ : ∃ m rest, s.turns = .host m :: rest := by
      unfold State.blockTurn at hb
      split at hb
      · cases hb
      · cases hb
      · exact ⟨_, _, ‹_›⟩
    unfold step at h
    rw [State.fetch_host hm] at h
    rcases hostAction_cases m with ⟨v, rfl, ha⟩ | ⟨hv, ha⟩
    · exact .inl ⟨v, rest, hm, by simpa [ha] using h⟩
    · exact .inr (.inl ⟨m, rest, hm, hv, by simpa [ha] using h⟩)

/-- The compose step: `TooManyPlanes`, or the whole of `FRAME` written (R126). -/
theorem composeStep_cases (h : composeStep s = .next t) :
    (Config.maxPlanes < s.nplanes.toNat ∧ t = s.takeFault (.tooManyPlanes s.nplanes)) ∨
    (s.nplanes.toNat ≤ Config.maxPlanes ∧
      t = ({ s with frame := s.frame.fill Config.frameSize s.composedAt }).finishCompose) := by
  unfold composeStep at h
  split at h
  · exact .inl ⟨‹_›, by simpa using h.symm⟩
  · exact .inr ⟨by omega, by simpa using h.symm⟩

/-- The header step always packs its header and starts the body (R131, R115). -/
theorem headerStep_cases (h : headerStep s = .next t) :
    ∃ bytes, headerBytes 0 = .ok bytes ∧ bytes.length = 48 ∧
      t = { ({ s with byteCount := 0 } : State).append bytes with row := 0, col := 0, phase := .body } := by
  unfold headerStep at h
  rw [headerBytes_zero] at h ⊢
  exact ⟨_, rfl, rfl, (emitThen_cases h).2⟩

end Sys2Proof.Machine
end

