-- ==== Sys2Proof/Tests/Slice0.lean ====
section
/-! SUPPORT. Tests of the model on the vectors of spec/95_test_vectors.md and on words written out from the encodings,
and a witness for the hypotheses of each obligation that has some. -/

namespace Sys2Proof.Tests

open Sys2Proof.Machine

/-! ## Helpers -/

/-- A field of the next state, if there is one. -/
def ofNext {α : Type} (o : Host.Outcome State Fault Refusal) (f : State → α) : Option α :=
  match o with
  | .next s => some (f s)
  | .fault _ => none
  | .refused _ => none

/-- The refusal, if there is one. -/
def ofRefused (o : Host.Outcome State Fault Refusal) : Option Refusal :=
  match o with
  | .next _ => none
  | .fault _ => none
  | .refused r => some r

/-- The model's own fault, if there is one. -/
def ofFault (o : Host.Outcome State Fault Refusal) : Option Fault :=
  match o with
  | .next _ => none
  | .fault f => some f
  | .refused _ => none

/-- The pixel whose three bytes are `k`. -/
def gray (k : Nat) : Pixel := ⟨BitVec.ofNat 8 k, BitVec.ofNat 8 k, BitVec.ofNat 8 k⟩

/-- The image whose rows are these lists of gray pixels, 0 beyond them. -/
def grayImage (rows : List (List Nat)) : Image := fun r c => gray ((rows.getD r []).getD c 0)

/-- A channel of a pixel. -/
def channel (p : Pixel) (k : Nat) : Byte := if k = 0 then p.ch0 else if k = 1 then p.ch1 else p.ch2

/-- A state whose `FRAME` holds an image. -/
def withImage (F : Image) (s : State) : State :=
  { s with frame := s.frame.fill Config.frameSize fun i => channel (F (i / 3 / 1920) (i / 3 % 1920)) (i % 3) }

theorem withImage_px (F : Image) (s : State) {r c : Nat} (hr : r < 1080) (hc : c < 1920) :
    (withImage F s).px r c = F r c := by
  have key (k : Nat) (hk : k < 3) : (withImage F s).frameByte r c k = channel (F r c) k := by
    have hlt : frameIndex r c k < Config.frameSize := by
      simp only [frameIndex, Config.frameSize, Config.height, Config.width, Config.channels]; omega
    simp only [withImage, State.frameByte]
    rw [Memory.read_fill _ _ _ _ hlt]
    simp only [frameIndex, Config.width, Config.channels]
    rw [show ((r * 1920 + c) * 3 + k) / 3 / 1920 = r by omega, show ((r * 1920 + c) * 3 + k) / 3 % 1920 = c by omega,
      show ((r * 1920 + c) * 3 + k) % 3 = k by omega]
  simp [State.px, key, channel]

/-- `P_BODY` at a scan position, with an image in `FRAME`. -/
def scanning (F : Image) (r c : Nat) : State :=
  withImage F { State.reset with
    phase := .body, status := { State.reset.status with busy := true },
    row := BitVec.ofNat 11 r, col := BitVec.ofNat 11 c, byteCount := 48 }

theorem scanning_px (F : Image) (r₀ c₀ : Nat) {r c : Nat} (hr : r < 1080) (hc : c < 1920) :
    (scanning F r₀ c₀).px r c = F r c := withImage_px F _ hr hc

/-- A state in a phase, with `BUSY` as the phase has it. -/
def inPhase (p : Phase) : State :=
  { State.reset with phase := p, status := { State.reset.status with busy := p.isBusy } }

/-- A state with one host move to come. -/
def facing (m : HostMove) (s : State) : State := { s with turns := [.host m] }

/-- A valid stream of 6532 bytes is held (CT4, CT5). -/
def holding : State :=
  { State.reset with
    status := { State.reset.status with outValid := true }, length := 6532,
    out := { gen := 2, cells := [(8, 0x84), (9, 0x19), (10, 0x00), (11, 0x00)] } }

/-! ## Well-formedness: an ill-formed term for each check -/

theorem test_illFormed_refused :
    (Instr.hdr 6).wellFormed = false ∧ (Instr.vrepS 0).wellFormed = false ∧ (Instr.vrepS 128).wellFormed = false ∧
    (Instr.vrepL 127).wellFormed = false ∧ (Instr.vrepL 1921).wellFormed = false ∧
    (Instr.hrepS 1 (gray 0)).wellFormed = false ∧ (Instr.hrepS 128 (gray 0)).wellFormed = false ∧
    (Instr.hrepL 127 (gray 0)).wellFormed = false ∧ (Instr.hrepL 1921 (gray 0)).wellFormed = false ∧
    (Instr.litsS [gray 1]).wellFormed = false ∧ (Instr.litsS (List.replicate 128 (gray 1))).wellFormed = false ∧
    (Instr.litsL [gray 1, gray 2]).wellFormed = false ∧ (Instr.reserved 2).wellFormed = false := by decide +kernel

theorem test_wellFormed_at_bounds :
    (Instr.hdr 6532).wellFormed = true ∧ (Instr.vrepS 1).wellFormed = true ∧ (Instr.vrepS 127).wellFormed = true ∧
    (Instr.vrepL 128).wellFormed = true ∧ (Instr.vrepL 1920).wellFormed = true ∧
    (Instr.hrepS 2 (gray 0)).wellFormed = true ∧ (Instr.hrepL 1920 (gray 0)).wellFormed = true ∧
    (Instr.litsS [gray 1, gray 2]).wellFormed = true ∧ (Instr.reserved 3).wellFormed = true := by decide

/-! ## Field packer (vectors FP1 to FP18) -/

theorem test_toBits :
    toBits 300 16 = .ok [false, false, false, false, false, false, false, true,
      false, false, true, false, true, true, false, false] ∧
    toBits 0 1 = .ok [false] ∧ toBits 5 3 = .ok [true, false, true] ∧ toBits 0 0 = .ok [] ∧
    toBits 256 8 = .error ⟨256, 8⟩ ∧ toBits (-1) 8 = .error ⟨-1, 8⟩ ∧ toBits 1 0 = .error ⟨1, 0⟩ := by decide

theorem test_toBytes :
    toBytes [false, false, false, false, false, false, false, true, false, false, true, false, true, true, false,
      false] = [0x2C, 0x01] ∧ toBytes [true] = [0x01] ∧ toBytes [] = [] := by decide

theorem test_pack :
    pack 0xABC 12 = .ok [0xBC, 0x0A] ∧ pack 0x1FFFF 17 = .ok [0xFF, 0xFF, 0x01] ∧ le16 1920 = .ok [0x80, 0x07] ∧
    le16 1080 = .ok [0x38, 0x04] ∧ le32 6532 = .ok [0x84, 0x19, 0x00, 0x00] ∧
    le32 8296612 = .ok [0xA4, 0x98, 0x7E, 0x00] ∧ le32 4294967296 = .error ⟨4294967296, 32⟩ := by decide

/-! ## Encodings: each constructor by a word written out from the spec (R80, R82, R97; vectors of 2.2, A, T1, T2, T3) -/

theorem test_countBytes :
    countBytes 1 = [0x01] ∧ countBytes 127 = [0x7F] ∧ countBytes 128 = [0x80, 0x01] ∧ countBytes 200 = [0xC8, 0x01] ∧
    countBytes 255 = [0xFF, 0x01] ∧ countBytes 256 = [0x80, 0x02] ∧ countBytes 1025 = [0x81, 0x08] ∧
    countBytes 1919 = [0xFF, 0x0E] ∧ countBytes 1920 = [0x80, 0x0F] := by decide

theorem test_decode_header :
    decodeHeader ([0x53, 0x70, 0x6C, 0x64, 0x80, 0x07, 0x38, 0x04, 0x84, 0x19, 0x00, 0x00] ++ List.replicate 8 0xFF ++
      List.replicate 5 0x00 ++ [0x02, 0x01] ++ List.replicate 21 0x00 ++ [0x80]) = .ok (.hdr 6532, [0x80]) := by
  decide

theorem test_decode_vrepS : decodeBody [0x00, 0x01, 0x7F, 0x01] = .ok (.vrepS 127, [0x01]) := by decide
theorem test_decode_vrepL : decodeBody [0x00, 0x01, 0xFE, 0x0E] = .ok (.vrepL 1918, []) := by decide
theorem test_decode_pix : decodeBody [0x01, 0x10, 0x20, 0x30] = .ok (.pix ⟨0x10, 0x20, 0x30⟩, []) := by decide
theorem test_decode_hrepS : decodeBody [0x7F, 0x01, 0x02, 0x03] = .ok (.hrepS 127 ⟨0x01, 0x02, 0x03⟩, []) := by decide
theorem test_decode_hrepL : decodeBody [0x80, 0x0F, 0x80, 0x02, 0x01] = .ok (.hrepL 1920 ⟨0x80, 0x02, 0x01⟩, []) := by
  decide
theorem test_decode_litsS :
    decodeBody [0x00, 0x03, 0x06, 0x06, 0x06, 0x07, 0x07, 0x07, 0x08, 0x08, 0x08, 0x00] =
      .ok (.litsS [gray 6, gray 7, gray 8], [0x00]) := by decide
theorem test_decode_litsL :
    decodeBody ([0x00, 0x80, 0x01] ++ List.replicate 384 0x05) = .ok (.litsL (List.replicate 128 (gray 5)), []) := by
  decide +kernel
theorem test_decode_eol : decodeBody [0x00, 0x00] = .ok (.eol, []) := by decide
theorem test_decode_eoi : decodeBody [0x00, 0x01, 0x00] = .ok (.eoi, []) := by decide
theorem test_decode_pad : decodeTail [0x00] = .ok (.pad, []) := by decide
theorem test_decode_nop : decode (.command 0x00000000) = .ok (.nop, []) := by decide
theorem test_decode_compose : decode (.command 0x00000001) = .ok (.compose, []) := by decide
theorem test_decode_encode : decode (.command 0x00000002) = .ok (.encode, []) := by decide
theorem test_decode_reserved : decode (.command 0xFFFFFFFF) = .ok (.reserved 0xFFFFFFFF, []) := by decide

/-- The forms of R93 that are no token, each refused by its own name. -/
theorem test_decode_refuses :
    decodeBody [0x80, 0x00, 0x01, 0x01, 0x01] = .error .longCountBelow128 ∧
    decodeBody [0x00, 0x01, 0x85, 0x00] = .error .longCountBelow128 ∧
    decodeBody [0x81, 0x0F, 0x00, 0x00, 0x00] = .error .countAboveWidth ∧
    decodeBody [0x02, 0x02] = .error .truncated ∧ decodeTail [0x01] = .error .paddingNotZero ∧
    decodeHeader [0x53] = .error .truncated ∧ decodeHeader (List.replicate 48 0x00) = .error .notSignature := by decide

theorem test_decode_refuses_header :
    decodeHeader ([0x53, 0x70, 0x6C, 0x64] ++ List.replicate 44 0x00) = .error .notImageSize ∧
    decodeHeader ([0x53, 0x70, 0x6C, 0x64, 0x80, 0x07, 0x38, 0x04] ++ List.replicate 40 0x00) =
      .error .notHeaderConstant ∧
    decodeHeader ([0x53, 0x70, 0x6C, 0x64, 0x80, 0x07, 0x38, 0x04, 0x02, 0x00, 0x00, 0x00] ++ headerConstants) =
      .error .lengthNotAligned := by decide

/-- Table words, numbered as spec/opcode_table.json numbers them: first stream byte leftmost (log 10). -/
theorem test_table_words :
    decodeTableWord 24 0x000102 = some (.vrepS 2) ∧ decodeTableWord 32 0x0001800F = some (.vrepL 1920) ∧
    decodeTableWord 32 0x01102030 = some (.pix ⟨0x10, 0x20, 0x30⟩) ∧
    decodeTableWord 32 0x02020304 = some (.hrepS 2 ⟨0x02, 0x03, 0x04⟩) ∧
    decodeTableWord 40 0x800F010203 = some (.hrepL 1920 ⟨0x01, 0x02, 0x03⟩) ∧ decodeTableWord 16 0 = some .eol ∧
    decodeTableWord 24 0x000100 = some .eoi ∧ decodeTableWord 8 0 = some .pad ∧ decodeTableWord 32 0 = some .nop ∧
    decodeTableWord 32 1 = some .compose ∧ decodeTableWord 32 2 = some .encode ∧
    decodeTableWord 32 3 = some (.reserved 3) := by decide

/-! ## Selection (vectors S1 to S15) -/

theorem test_S1_vrep_one : selectToken (grayImage [[1, 2], [1, 3]]) 1 0 = .vrepS 1 := by decide
theorem test_S2_vertical_first : selectToken (grayImage [[1, 1, 2], [1, 1, 3]]) 1 0 = .vrepS 2 := by decide
theorem test_S3_hrep_two : selectToken (grayImage [[1, 1, 2]]) 0 0 = .hrepS 2 (gray 1) := by decide
theorem test_S4_pix_next_repeats : selectToken (grayImage [[1, 2, 2]]) 0 0 = .pix (gray 1) := by decide
theorem test_S5_pix_next_matches_above : selectToken (grayImage [[9, 2, 8], [1, 2, 7]]) 1 0 = .pix (gray 1) := by
  decide
theorem test_S6_lits_stops_before_repeat :
    selectToken (grayImage [[1, 2, 3, 3]]) 0 0 = .litsS [gray 1, gray 2] := by decide
theorem test_S7_last_column : selectToken (fun _ c => gray (c % 2)) 0 1919 = .pix (gray 1) := by decide
theorem test_S8_lits_at_end : selectToken (fun _ c => gray (c % 2)) 0 1918 = .litsS [gray 0, gray 1] := by decide
theorem test_S9_hrep_at_end : selectToken (fun _ _ => gray 4) 0 1918 = .hrepS 2 (gray 4) := by decide
theorem test_S10_pix_then_vrep :
    selectToken (fun r c => gray (if c = 1918 then r else 7)) 1 1918 = .pix (gray 1) ∧
    selectToken (fun r c => gray (if c = 1918 then r else 7)) 1 1919 = .vrepS 1 := by decide
theorem test_S11_no_wrap : vertical (fun _ _ => gray 4) 0 0 = false := by decide
theorem test_S12_whole_row_vertical : selectToken (fun _ _ => gray 4) 1 0 = .vrepL 1920 := by decide +kernel
theorem test_S13_whole_row_equal : selectToken (fun _ _ => gray 4) 0 0 = .hrepL 1920 (gray 4) := by decide +kernel

/-- Row 1 of frame T1, token by token. -/
theorem test_T1_row_one :
    selectToken (grayImage [[1, 2, 2, 3, 4, 5, 5, 1], [1, 2, 3, 3, 4, 6, 7, 8]]) 1 0 = .vrepS 2 ∧
    selectToken (grayImage [[1, 2, 2, 3, 4, 5, 5, 1], [1, 2, 3, 3, 4, 6, 7, 8]]) 1 2 = .hrepS 2 (gray 3) ∧
    selectToken (grayImage [[1, 2, 2, 3, 4, 5, 5, 1], [1, 2, 3, 3, 4, 6, 7, 8]]) 1 4 = .vrepS 1 ∧
    selectToken (grayImage [[1, 2, 2, 3, 4, 5, 5, 1], [1, 2, 3, 3, 4, 6, 7, 8]]) 1 5 =
      .litsS [gray 6, gray 7, gray 8] := by decide

/-! ## Compositor (vectors BP1 to BP15) -/

/-- Every plane written at pixel (0, 0): 1 for the planes listed, 0 for the others. -/
def planesAt (n : Nat) (ones : List Nat) : State :=
  { State.reset with
    nplanes := BitVec.ofNat 32 n, phase := .compose, status := { State.reset.status with busy := true },
    plane := { gen := 0, cells := (List.range 24).map fun p => (planeIndex p 0 0, ones.contains p) } }

/-- The composed pixel (0, 0). -/
def composedPixel (s : State) : Pixel := ⟨s.composedByte 0 0 0, s.composedByte 0 0 1, s.composedByte 0 0 2⟩

theorem test_BP1 : composedPixel (planesAt 1 [0]) = ⟨0x00, 0x00, 0x01⟩ := by decide
theorem test_BP3 : composedPixel (planesAt 9 [8]) = ⟨0x00, 0x01, 0x00⟩ := by decide
theorem test_BP6 : composedPixel (planesAt 24 [23]) = ⟨0x80, 0x00, 0x00⟩ := by decide
theorem test_BP9 : composedPixel (planesAt 24 [0, 9, 23]) = ⟨0x80, 0x02, 0x01⟩ := by decide
theorem test_BP11 : composedPixel (planesAt 3 [0, 1, 2, 3, 9, 23]) = ⟨0x00, 0x00, 0x07⟩ := by decide
theorem test_BP12 : composedPixel (planesAt 0 [0, 1, 2, 3]) = ⟨0x00, 0x00, 0x00⟩ := by decide
theorem test_BP13 : composedPixel (planesAt 21 [3, 12, 20]) = ⟨0x10, 0x10, 0x08⟩ := by decide
theorem test_BP14 :
    ofNext (composeStep (planesAt 25 [])) (fun t => (t.status.word, t.phase, t.nplanes)) =
      some (0x12, .fault, 25) := by decide
theorem test_composedAt_layout :
    (planesAt 24 [0, 9, 23]).composedAt 0 = 0x80 ∧ (planesAt 24 [0, 9, 23]).composedAt 1 = 0x02 ∧
    (planesAt 24 [0, 9, 23]).composedAt 2 = 0x01 := by decide

/-! ## Steps of the encoder, each from reset with its word placed (log 11) -/

theorem test_step_hdr :
    ofNext (step (State.reset.arrange (.hdr 0))) (fun t => (t.byteCount, t.phase, t.outByte 0, t.outByte 47)) =
      some (48, .body, 0x53, 0x00) := by decide
theorem test_step_patch :
    ofNext (step (State.reset.arrange (.hdr 6532))) (fun t => (t.status.word, t.length, t.lengthField)) =
      some (0x04, 6532, 6532) := by decide
theorem test_step_vrepS :
    ofNext (step (State.reset.withFetchWord 24 0x000102)) (fun t => (t.col, t.n, t.outByte 1, t.outByte 2)) =
      some (1920, 2, 0x01, 0x02) := by decide
theorem test_step_pix :
    ofNext (step (State.reset.withFetchWord 32 0x01102030)) (fun t => (t.col, t.outByte 0, t.outByte 3)) =
      some (1920, 0x01, 0x30) := by decide
theorem test_step_hrepS :
    ofNext (step (State.reset.withFetchWord 32 0x02020304)) (fun t => (t.col, t.outByte 0, t.outByte 3)) =
      some (1920, 0x02, 0x04) := by decide
theorem test_step_litsS :
    ofNext (step (State.reset.arrange (.litsS [gray 3, gray 4]))) (fun t => (t.byteCount, t.outByte 1, t.outByte 7)) =
      some (8, 0x02, 0x04) := by decide
theorem test_step_eol :
    ofNext (step (State.reset.withFetchWord 16 0)) (fun t => (t.row, t.col, t.phase, t.byteCount)) =
      some (1, 0, .body, 2) := by decide
theorem test_last_eol :
    ofNext (exec .eol { inPhase .body with row := 1079, col := 1920 }) (fun t => (t.row, t.phase)) =
      some (1080, .eoi) := by decide
theorem test_step_eoi :
    ofNext (step (State.reset.withFetchWord 24 0x000100)) (fun t => (t.phase, t.byteCount, t.outByte 1)) =
      some (.pad, 3, 0x01) := by decide
theorem test_step_pad :
    ofNext (step (State.reset.withFetchWord 8 0)) (fun t => (t.phase, t.byteCount, t.outByte 3)) =
      some (.patch, 4, 0x00) := by decide
theorem test_no_pad_when_aligned :
    ofNext (exec .pad { inPhase .pad with byteCount := 6532 }) (fun t => (t.phase, t.byteCount)) =
      some (.patch, 6532) := by decide
theorem test_token_not_selected : ofRefused (exec (.vrepS 1) (inPhase .eoi)) = some .tokenNotSelected := by decide
theorem test_scan_outside : ofFault (step { inPhase .body with col := 1921 }) = some .scanOutsideFrame := by decide
theorem test_out_overflow :
    ofFault (exec .eoi { inPhase .eoi with byteCount := 8296610 }) = some .outOverflow := by decide

/-! ## Commands, status and faults (vectors CT1 to CT14, program P3) -/

theorem test_CT1 :
    ofNext (step (facing (.readReg 2) State.reset)) (·.hostResult) = some (some 0) ∧
    ofNext (step (facing (.readReg 0) State.reset)) (·.hostResult) = some (some 0) := by decide
theorem test_CT2 : ofNext (step (facing (.writeReg 0 0) State.reset)) (·.status.word) = some 0 := by decide
theorem test_CT3 :
    ofNext (step (State.reset.withFetchWord 32 1)) (fun t => (t.phase, t.status.word)) = some (.compose, 0x01) := by
  decide
theorem test_CT4 :
    ofNext (step (facing (.writeReg 0 1) holding)) (fun t => (t.status.word, t.length)) = some (0x05, 6532) := by decide
theorem test_CT5 :
    ofNext (step (facing (.writeReg 0 2) holding)) (fun t => (t.status.word, t.length, t.phase)) =
      some (0x01, 0, .header) := by decide
theorem test_CT7 :
    ofNext (step (facing (.writeReg 0 3) State.reset)) (fun t => (t.status.word, t.phase)) = some (0x42, .fault) := by
  decide
theorem test_CT9 :
    ofNext (step (facing (.writeReg 1 3) { inPhase .body with nplanes := 24 }))
      (fun t => (t.status.word, t.length, t.nplanes, t.out.cells)) = some (0x52, 0, 24, []) := by decide
theorem test_CT10 :
    ofNext (step (facing (.writeReg 0 0) (inPhase .compose))) (fun t => (t.status.word, t.frame.cells)) =
      some (0x52, []) := by decide
theorem test_CT11 :
    ofNext (step (facing (.readReg 2) (inPhase .body))) (·.hostResult) = some (some 0x01) := by decide
theorem test_CT12 :
    ofNext (step (facing (.readOut 0) (inPhase .body))) (fun t => (t.phase, t.status.word)) = some (.body, 0x01) := by
  decide
theorem test_CT13 :
    ofNext (step (facing (.writeReg 1 1) { inPhase .fault with nplanes := 25 })) (·.nplanes) = some 25 := by decide
theorem test_CT14 :
    ofNext (step (facing .assertReset { inPhase .fault with nplanes := 25 }))
      (fun t => (t.status.word, t.nplanes, t.phase)) = some (0, 0, .idle) := by decide
theorem test_absent_transactions :
    ofRefused (step (facing (.writeOut 0 0) State.reset)) = some .outNotWritable ∧
    ofRefused (step (facing (.readPlane 0 0 0) State.reset)) = some .planeNotReadable ∧
    ofRefused (step (facing (.writeReg 4 0) State.reset)) = some .noSuchRegister ∧
    ofRefused (step (facing (.writeFrame 1080 0 0 0) State.reset)) = some .indexOutsideStore := by decide
theorem test_frame_write_then_read :
    ofNext (step (facing (.readFrame 0 1 2)
      { State.reset with frame := State.reset.frame.write (frameIndex 0 1 2) 0xAA })) (·.hostResult) =
      some (some 0xAA) := by decide
theorem test_idle_block_rests : ofNext (step State.reset) (fun t => (t.phase, t.status.word)) = some (.idle, 0) := by
  decide

/-! ## Reference decoder (vectors RD1, RD3) -/

theorem test_RD1 : decodeTokens 9 [0x00, 0x01, 0x05] ⟨[], []⟩ = none := by decide
theorem test_RD3 : decodeTokens 9 [0x7F, 0x01, 0x01, 0x01, 0x00, 0x00] ⟨[], []⟩ = none := by decide +kernel

/-! ## Witnesses: for each obligation with hypotheses, a state and operands that meet all of them -/

theorem witness_DecodeInvertsEncode :
    (Instr.vrepS 1).WellFormed ∧ encode (.vrepS 1) = .stream .body [0x00, 0x01, 0x01] ∧
    (Instr.hdr 0).WellFormed ∧ (Instr.litsS [gray 1, gray 2]).WellFormed ∧ (Instr.reserved 3).WellFormed := by decide

theorem witness_DecodedTokenIsItsEncoding :
    decodeStream .body [0x00, 0x01, 0x01, 0x00] = .ok (.vrepS 1, [0x00]) ∧
    decodeStream .tail [0x00] = .ok (.pad, []) ∧
    decodeStream .header (tokenBytes (.hdr 6532)) = .ok (.hdr 6532, []) := by decide

theorem witness_CountOperandReadsBack : ∃ n : Nat, 1 ≤ n ∧ n ≤ 1920 := ⟨1920, by decide⟩

theorem witness_ToBits_overflows : ∃ (v : Int) (w : Nat), v < 0 ∨ (2 : Int) ^ w ≤ v := ⟨256, 8, by decide⟩
theorem witness_ToBits_fits : ∃ (v : Int) (w : Nat), 0 ≤ v ∧ v < (2 : Int) ^ w := ⟨255, 8, by decide⟩
theorem witness_PackedValueIsLittleEndian : ∃ w v : Nat, 1 ≤ w ∧ w ≤ 32 ∧ v < 2 ^ w := ⟨32, 4294967295, by decide⟩

/-- An idle block that is not busy: for `NopChangesNothing`, `EncodeCommandStarts`, `ComposeCommandStarts`,
`ComposePacksThePlanes` and `EncodeRunsToItsFunction`. -/
theorem witness_idle :
    ∃ s : State, s.phase = .idle ∧ s.status.busy = false ∧ s.turns = [] ∧ s.nplanes.toNat ≤ 24 :=
  ⟨State.reset, by decide⟩

theorem witness_ReservedCommandIsIllegal :
    ∃ (s : State) (v : Reg), 3 ≤ v.toNat ∧ s.phase = .idle ∧ s.status.busy = false := ⟨State.reset, 3, by decide⟩

theorem witness_CommandsIgnoredAfterFault : ∃ s : State, s.phase = .fault := ⟨inPhase .fault, by decide⟩

/-- A compose step that completes: for `ComposeIsInvertible` and `ComposeIsLaneWise` (of the state with itself). -/
theorem witness_compose :
    ∃ s t : State, s.phase = .compose ∧ s.blockTurn = true ∧ s.nplanes.toNat ≤ 24 ∧ step s = .next t :=
  ⟨planesAt 24 [0], _, by decide, by decide, by decide, rfl⟩

theorem witness_TooManyPlanesFaults :
    ∃ s : State, s.phase = .compose ∧ s.blockTurn = true ∧ 24 < s.nplanes.toNat := ⟨planesAt 25 [], by decide⟩

theorem witness_HeaderStepCompletes : ∃ s : State, s.phase = .header := ⟨inPhase .header, by decide⟩

/-- Counts 2 and 128 at the row end: both clauses of `VerticalRepeatCompletes`. -/
theorem witness_VerticalRepeatCompletes (n : Nat) (hn : n = 2 ∨ n = 128) :
    ∃ (s : State) (r c : Nat), s.phase = .body ∧ s.row.toNat = r ∧ s.col.toNat = c ∧ 0 < r ∧ r < 1080 ∧
      1 ≤ n ∧ c + n ≤ 1920 ∧ (∀ k, c ≤ k → k < c + n → s.px r k = s.px (r - 1) k) ∧
      (c + n = 1920 ∨ s.px r (c + n) ≠ s.px (r - 1) (c + n)) ∧
      s.byteCount.toNat + (countBytes n).length + 2 ≤ 8296612 := by
  refine ⟨scanning (fun _ _ => gray 4) 1 (1920 - n), 1, 1920 - n, rfl, rfl, ?_, by omega, by omega, by omega,
    by omega, fun k hk hk' => ?_, by omega, ?_⟩
  · rcases hn with rfl | rfl <;> decide
  · rw [scanning_px _ _ _ (by omega) (by omega), scanning_px _ _ _ (by omega) (by omega)]
  · rcases hn with rfl | rfl <;> decide

/-- A run that ends inside the row: the other way to end in `VerticalRepeatCompletes`. -/
theorem witness_VerticalRepeat_inside :
    ∃ s : State, s.phase = .body ∧ s.row.toNat = 1 ∧ s.col.toNat = 0 ∧ s.px 1 0 = s.px 0 0 ∧
      s.px 1 1 ≠ s.px 0 1 := by
  refine ⟨scanning (grayImage [[1, 2], [1, 3]]) 1 0, rfl, rfl, rfl, ?_, ?_⟩
  · rw [scanning_px _ _ _ (by omega) (by omega), scanning_px _ _ _ (by omega) (by omega)]; decide
  · rw [scanning_px _ _ _ (by omega) (by omega), scanning_px _ _ _ (by omega) (by omega)]; decide

theorem witness_HorizontalRepeatCompletes (n : Nat) (hn : n = 2 ∨ n = 128) :
    ∃ (s : State) (r c : Nat), s.phase = .body ∧ s.row.toNat = r ∧ s.col.toNat = c ∧ r < 1080 ∧ 2 ≤ n ∧
      c + n ≤ 1920 ∧ (r = 0 ∨ s.px r c ≠ s.px (r - 1) c) ∧ (∀ k, c ≤ k → k < c + n → s.px r k = s.px r c) ∧
      (c + n = 1920 ∨ s.px r (c + n) ≠ s.px r c) ∧ s.byteCount.toNat + (countBytes n).length + 3 ≤ 8296612 := by
  refine ⟨scanning (fun _ _ => gray 4) 0 (1920 - n), 0, 1920 - n, rfl, rfl, ?_, by omega, by omega, by omega,
    .inl rfl, fun k hk hk' => ?_, by omega, ?_⟩
  · rcases hn with rfl | rfl <;> decide
  · rw [scanning_px _ _ _ (by omega) (by omega), scanning_px _ _ _ (by omega) (by omega)]
  · rcases hn with rfl | rfl <;> decide

/-- The last column, a next pixel that matches above, a next pixel that repeats: the clauses of
`SingleLiteralCompletes`. -/
theorem witness_SingleLiteral_last :
    ∃ s : State, s.phase = .body ∧ s.row.toNat = 0 ∧ s.col.toNat = 1919 ∧ s.byteCount.toNat + 4 ≤ 8296612 :=
  ⟨scanning (fun _ _ => gray 4) 0 1919, by decide⟩
theorem witness_SingleLiteral_above :
    ∃ s : State, s.phase = .body ∧ s.row.toNat = 1 ∧ s.col.toNat = 0 ∧ s.px 1 0 ≠ s.px 0 0 ∧ s.px 1 0 ≠ s.px 1 1 ∧
      s.px 1 1 = s.px 0 1 ∧ s.byteCount.toNat + 4 ≤ 8296612 := by
  refine ⟨scanning (grayImage [[9, 2], [1, 2]]) 1 0, rfl, rfl, rfl, ?_, ?_, ?_, by decide⟩ <;>
    rw [scanning_px _ _ _ (by omega) (by omega), scanning_px _ _ _ (by omega) (by omega)] <;> decide
theorem witness_SingleLiteral_repeat :
    ∃ s : State, s.phase = .body ∧ s.row.toNat = 0 ∧ s.col.toNat = 0 ∧ s.px 0 0 ≠ s.px 0 1 ∧ s.px 0 1 = s.px 0 2 ∧
      s.byteCount.toNat + 4 ≤ 8296612 := by
  refine ⟨scanning (grayImage [[1, 2, 2]]) 0 0, rfl, rfl, rfl, ?_, ?_, by decide⟩ <;>
    rw [scanning_px _ _ _ (by omega) (by omega), scanning_px _ _ _ (by omega) (by omega)] <;> decide

/-- Two pixels that alternate. -/
def stripes : Image := fun _ c => gray (c % 2)

theorem stripes_ne (r c : Nat) : stripes r c ≠ stripes r (c + 1) := by
  rcases Nat.mod_two_eq_zero_or_one c with h | h
  · simp only [stripes, h, show (c + 1) % 2 = 1 by omega]; decide
  · simp only [stripes, h, show (c + 1) % 2 = 0 by omega]; decide

theorem witness_LiteralRunCompletes (n : Nat) (hn : n = 2 ∨ n = 128) :
    ∃ (s : State) (r c : Nat), s.phase = .body ∧ s.row.toNat = r ∧ s.col.toNat = c ∧ r < 1080 ∧ 2 ≤ n ∧
      c + n ≤ 1920 ∧
      (∀ k, c ≤ k → k < c + n → (r = 0 ∨ s.px r k ≠ s.px (r - 1) k) ∧ (k = 1919 ∨ s.px r k ≠ s.px r (k + 1))) ∧
      (c + n = 1920 ∨ (0 < r ∧ s.px r (c + n) = s.px (r - 1) (c + n)) ∨
        (c + n + 1 ≤ 1919 ∧ s.px r (c + n) = s.px r (c + n + 1))) ∧
      s.byteCount.toNat + 1 + (countBytes n).length + 3 * n ≤ 8296612 := by
  refine ⟨scanning stripes 0 (1920 - n), 0, 1920 - n, rfl, rfl, ?_, by omega, by omega, by omega,
    fun k hk hk' => ⟨.inl rfl, ?_⟩, by omega, ?_⟩
  · rcases hn with rfl | rfl <;> decide
  · rcases Nat.lt_or_ge k 1919 with h | h
    · rw [scanning_px _ _ _ (by omega) (by omega), scanning_px _ _ _ (by omega) (by omega)]
      exact .inr (stripes_ne 0 k)
    · exact .inl (by omega)
  · rcases hn with rfl | rfl <;> decide

/-- A literal run that ends before a repeat: the other ways to end in `LiteralRunCompletes`. -/
theorem witness_LiteralRun_before_repeat :
    ∃ s : State, s.phase = .body ∧ s.row.toNat = 1 ∧ s.col.toNat = 0 ∧ s.px 1 0 ≠ s.px 0 0 ∧ s.px 1 0 ≠ s.px 1 1 ∧
      s.px 1 1 ≠ s.px 0 1 ∧ s.px 1 1 ≠ s.px 1 2 ∧ s.px 1 2 = s.px 0 2 ∧ s.px 1 2 = s.px 1 3 := by
  refine ⟨scanning (grayImage [[5, 6, 3], [1, 2, 3, 3]]) 1 0, rfl, rfl, rfl, ?_, ?_, ?_, ?_, ?_, ?_⟩ <;>
    rw [scanning_px _ _ _ (by omega) (by omega), scanning_px _ _ _ (by omega) (by omega)] <;> decide

theorem witness_EndOfRowCompletes :
    ∃ s : State, s.phase = .body ∧ s.col = 1920 ∧ s.byteCount.toNat + 2 ≤ 8296612 :=
  ⟨{ inPhase .body with row := 1079, col := 1920 }, by decide⟩
theorem witness_EndOfImageCompletes : ∃ s : State, s.phase = .eoi ∧ s.byteCount.toNat + 3 ≤ 8296612 :=
  ⟨inPhase .eoi, by decide⟩
theorem witness_PaddingCompletes : ∃ s : State, s.phase = .pad ∧ s.byteCount.toNat + 3 ≤ 8296612 :=
  ⟨{ inPhase .pad with byteCount := 8296609 }, by decide⟩
theorem witness_PatchCompletes : ∃ s : State, s.phase = .patch := ⟨inPhase .patch, by decide⟩

theorem witness_OtherTokensAreRefused :
    ∃ (s : State) (i : Instr) (part : StreamPart), encode i = .stream part (tokenBytes i) ∧ s.nextToken ≠ some i :=
  ⟨inPhase .eoi, .pad, .tail, by decide⟩

/-- A scan at the start of the image, with the bounds of its invariant. -/
theorem witness_BodyStepAdvances :
    ∃ s : State, s.phase = .body ∧ s.ScanInv ∧ s.col.toNat < 1920 ∧ s.blockTurn = true :=
  ⟨scanning stripes 0 0, rfl,
    ⟨by decide, by decide, by decide, by decide, by decide, by decide, by decide⟩,
    by decide, by decide⟩

theorem witness_EmittedTokensAreLegal :
    ∃ (s : State) (i : Instr), s.ScanInv ∧ s.nextToken = some i ∧ s.phase = .body ∧ i = .eol :=
  ⟨{ inPhase .body with row := 1079, col := 1920, byteCount := 48 }, .eol,
    ⟨by decide, by decide, by decide, by decide, by decide, by decide, by decide⟩,
    by decide,
    by decide, rfl⟩

theorem witness_AlternatingRowZero :
    ∃ (s : State) (a b : Pixel), a ≠ b ∧ s.phase = .body ∧ s.row = 0 ∧ s.col = 0 ∧ s.blockTurn = true ∧
      s.byteCount.toNat + 5763 ≤ 8296612 ∧ ∀ c, c < 1920 → s.px 0 c = if c % 2 = 0 then a else b := by
  refine ⟨scanning stripes 0 0, gray 0, gray 1, by decide, rfl, by decide, by decide, by decide, by decide,
    fun c hc => ?_⟩
  rw [scanning_px _ _ _ (by omega) hc]
  rcases Nat.mod_two_eq_zero_or_one c with h | h <;> simp [stripes, h]

theorem witness_RowTokenSequenceShape :
    ∃ (F : Image) (r c : Nat), c < 1920 ∧ c + pixelCount (selectToken F r c) < 1920 ∧
      selectToken F r c = .pix (gray 1) := ⟨grayImage [[1, 2, 2]], 0, 0, by decide⟩
theorem witness_RowTokenSequence_vrep : selectToken (grayImage [[1, 2], [1, 3]]) 1 0 = .vrepS 1 := by decide
theorem witness_RowTokenSequence_hrep : selectToken (grayImage [[1, 1, 2]]) 0 0 = .hrepS 2 (gray 1) := by decide
theorem witness_RowTokenSequence_lits :
    selectToken (grayImage [[1, 2, 3, 3]]) 0 0 = .litsS [gray 1, gray 2] := by decide

/-- Two images that agree on rows 0 and 1 and nowhere else. -/
theorem witness_RowBytesDependOnTwoRows :
    ∃ (F G : Image) (r : Nat), (∀ c, c < 1920 → F r c = G r c) ∧
      (0 < r → ∀ c, c < 1920 → F (r - 1) c = G (r - 1) c) ∧ F 2 0 ≠ G 2 0 := by
  refine ⟨fun _ _ => gray 0, fun r _ => gray (r / 2), 1, fun c _ => ?_, fun _ c _ => ?_, by decide⟩ <;> rfl

theorem witness_EncodeTerminates : ∃ s : State, s.phase = .header ∧ s.turns = [] := ⟨inPhase .header, by decide⟩

/-- `FaultEntryLeaves`: a fault outside a compose violation, and one outside `ENCODE`. -/
theorem witness_FaultEntryLeaves :
    ∃ (s : State) (f : FaultCause), ¬(s.phase = .compose ∧ f = .busyViolation) ∧ s.phase.isEncode = false :=
  ⟨inPhase .compose, .tooManyPlanes 25, by decide⟩

theorem witness_OnlyResetLeavesFault :
    ∃ s t : State, s.phase = .fault ∧ s.status.busy = false ∧ step s = .next t :=
  ⟨inPhase .fault, _, by decide, by decide, rfl⟩

/-- The three ways into `P_FAULT` of `WhichFaultsOccur`. -/
theorem witness_WhichFaults_compose :
    ∃ s t : State, s.ScanInv ∧ s.phase ≠ .fault ∧ step s = .next t ∧ t.phase = .fault :=
  ⟨planesAt 25 [], _, ⟨by decide, by decide, by decide, by decide, by decide, by decide, by decide⟩,
    by decide, rfl, by decide⟩
theorem witness_WhichFaults_command :
    ∃ s t : State, s.ScanInv ∧ s.phase ≠ .fault ∧ step s = .next t ∧ t.phase = .fault :=
  ⟨facing (.writeReg 0 3) State.reset, _, ⟨by decide, by decide, by decide, by decide, by decide, by decide, by decide⟩,
    by decide, rfl, by decide⟩
theorem witness_WhichFaults_busy :
    ∃ s t : State, s.ScanInv ∧ s.phase ≠ .fault ∧ step s = .next t ∧ t.phase = .fault :=
  ⟨facing (.writeReg 1 3) (inPhase .header), _,
    ⟨by decide, by decide, by decide, by decide, by decide, by decide, by decide⟩,
    by decide, rfl, by decide⟩

theorem witness_HostWritesPlane :
    ∃ (s : State) (p r c : Nat) (bit : Bool) (rest : List Turn), s.phase = .idle ∧ s.status.busy = false ∧
      s.turns = .host (.writePlane p r c bit) :: rest ∧ p < 24 ∧ r < 1080 ∧ c < 1920 :=
  ⟨facing (.writePlane 23 1079 1919 true) State.reset, 23, 1079, 1919, true, [], by decide⟩
theorem witness_HostWritesFrame :
    ∃ (s : State) (r c k : Nat) (byte : Byte) (rest : List Turn), s.phase = .idle ∧ s.status.busy = false ∧
      s.turns = .host (.writeFrame r c k byte) :: rest ∧ r < 1080 ∧ c < 1920 ∧ k < 3 :=
  ⟨facing (.writeFrame 1079 1919 2 0xAA) State.reset, 1079, 1919, 2, 0xAA, [], by decide⟩
theorem witness_HostWritesRegisters :
    (∃ (s : State) (v : Reg) (rest : List Turn), s.turns = .host (.writeReg 1 v) :: rest ∧ s.phase = .idle ∧
      s.status.busy = false) ∧
    (∃ (s : State) (v : Reg) (rest : List Turn), s.turns = .host (.writeReg 2 v) :: rest) ∧
    ∃ (s : State) (v : Reg) (rest : List Turn), s.turns = .host (.writeReg 3 v) :: rest :=
  ⟨⟨facing (.writeReg 1 24) State.reset, 24, [], by decide⟩, ⟨facing (.writeReg 2 7) (inPhase .body), 7, [], by decide⟩,
    ⟨facing (.writeReg 3 7) (inPhase .fault), 7, [], by decide⟩⟩
theorem witness_HostWriteWhileBusy_encode :
    ∃ (s : State) (m : HostMove) (rest : List Turn), s.turns = .host m :: rest ∧ m.isOwnedWrite = true ∧
      m.isOffered = true ∧ s.phase.isBusy = true ∧ s.status.busy = true ∧ s.phase.isEncode = true :=
  ⟨facing (.writeFrame 0 0 0 0xAA) (inPhase .body), .writeFrame 0 0 0 0xAA, [], by decide⟩
theorem witness_HostWriteWhileBusy_compose :
    ∃ (s : State) (m : HostMove) (rest : List Turn), s.turns = .host m :: rest ∧ m.isOwnedWrite = true ∧
      m.isOffered = true ∧ s.phase.isBusy = true ∧ s.status.busy = true ∧ s.phase = .compose :=
  ⟨facing (.writeReg 0 0) (inPhase .compose), .writeReg 0 0, [], by decide⟩
theorem witness_HostWritesIgnoredAfterFault :
    ∃ (s : State) (m : HostMove) (rest : List Turn), s.turns = .host m :: rest ∧ m.isOffered = true ∧
      m.isRead = false ∧ m ≠ .assertReset ∧ s.phase = .fault :=
  ⟨facing (.writeReg 1 1) (inPhase .fault), .writeReg 1 1, [], by decide⟩
theorem witness_HostReadsRegisters :
    ∃ (s : State) (number : Nat) (rest : List Turn), s.turns = .host (.readReg number) :: rest ∧ number < 4 :=
  ⟨facing (.readReg 3) State.reset, 3, [], by decide⟩
theorem witness_HostReadsStores :
    (∃ (s : State) (r c k : Nat) (rest : List Turn), s.status.busy = false ∧
      s.turns = .host (.readFrame r c k) :: rest ∧ r < 1080 ∧ c < 1920 ∧ k < 3) ∧
    ∃ (s : State) (a : Nat) (rest : List Turn), s.status.busy = false ∧ s.turns = .host (.readOut a) :: rest ∧
      a < 8296612 :=
  ⟨⟨facing (.readFrame 1079 1919 2) State.reset, 1079, 1919, 2, [], by decide⟩,
    ⟨facing (.readOut 8296611) State.reset, 8296611, [], by decide⟩⟩
theorem witness_ReadsHaveNoSideEffects :
    ∃ (s : State) (m : HostMove) (rest : List Turn), s.turns = .host m :: rest ∧ m.isRead = true ∧
      m.isOffered = true := ⟨facing (.readOut 0) (inPhase .body), .readOut 0, [], by decide⟩
theorem witness_ExactlyOfferedTransactionsComplete :
    (∃ (s : State) (m : HostMove) (rest : List Turn), s.turns = .host m :: rest ∧ m.isOffered = true) ∧
    ∃ (s : State) (m : HostMove) (rest : List Turn), s.turns = .host m :: rest ∧ m.isOffered = false :=
  ⟨⟨facing (.readReg 3) State.reset, .readReg 3, [], by decide⟩,
    ⟨facing (.readReg 4) State.reset, .readReg 4, [], by decide⟩⟩
theorem witness_ResetRestoresRegisters :
    ∃ (s : State) (rest : List Turn), s.turns = .host .assertReset :: rest :=
  ⟨facing .assertReset (inPhase .body), [], by decide⟩
theorem witness_StepRunsTheWrittenCommand :
    ∃ (s : State) (v : Reg) (rest : List Turn), s.turns = .host (.writeReg 0 v) :: rest :=
  ⟨facing (.writeReg 0 2) State.reset, 2, [], by decide⟩
theorem witness_StepRunsTheSelectedToken :
    ∃ (s : State) (i : Instr), s.blockTurn = true ∧ s.nextToken = some i := ⟨inPhase .eoi, .eoi, by decide⟩
theorem witness_IdleBlockRests :
    (∃ s : State, s.blockTurn = true ∧ s.phase = .idle) ∧ ∃ s : State, s.blockTurn = true ∧ s.phase = .fault :=
  ⟨⟨State.reset, by decide⟩, ⟨inPhase .fault, by decide⟩⟩
theorem witness_BlockWritesOnlyItsTargets :
    ∃ s t : State, s.blockTurn = true ∧ step s = .next t ∧ s.phase = .eoi :=
  ⟨inPhase .eoi, _, by decide, rfl, by decide⟩

/-- The invariants hold in a state with a running scan, and a step from it completes: for the five invariant
statements and `MachineNeverStops`. -/
theorem witness_invariants :
    ∃ s t : State, s.StatusInv ∧ s.StoresInv ∧ s.ScanInv ∧ s.LengthInv ∧ step s = .next t := by
  refine ⟨{ inPhase .body with col := 1920, byteCount := 48 }, _,
    ⟨by decide, by decide, by decide, by decide⟩, ⟨by decide, by decide, by decide, by decide, by decide, by decide⟩,
    ⟨by decide, by decide, by decide, by decide, by decide, by decide, by decide⟩,
    ⟨fun h => absurd h (by decide), fun _ => by decide, fun h => absurd h (by decide), fun h => absurd h (by decide),
      fun h => absurd h (by decide)⟩, rfl⟩

/-- The clauses of the length invariant hold with a valid stream too. -/
theorem witness_LengthInv_valid : holding.LengthInv ∧ holding.status.outValid = true :=
  ⟨⟨fun _ => .inl (by decide), fun h => absurd h (by decide), fun _ => by decide, fun _ => by decide,
    fun _ => by decide⟩, by decide⟩

end Sys2Proof.Tests
end

section
/-! SUPPORT. The little-endian length that the patch step writes (R29, R57, R114). -/

namespace Sys2Proof.Machine

/-- A shifted number is its lowest bit and the number shifted once more. -/
theorem shiftRight_eq_double_add_testBit (v k : Nat) : v >>> k = 2 * v >>> (k + 1) + (v.testBit k).toNat := by
  rw [Nat.toNat_testBit, Nat.shiftRight_succ, ← Nat.shiftRight_eq_div_pow]
  omega

/-- A byte made of eight consecutive bits of a number is the number shifted (R112). -/
theorem byteOfBits_testBit (v k : Nat) :
    byteOfBits [v.testBit (k + 7), v.testBit (k + 6), v.testBit (k + 5), v.testBit (k + 4), v.testBit (k + 3),
      v.testBit (k + 2), v.testBit (k + 1), v.testBit k] = BitVec.ofNat 8 (v >>> k) := by
  have bit (j : Nat) := shiftRight_eq_double_add_testBit v (k + j)
  have b0 := bit 0; have b1 := bit 1; have b2 := bit 2; have b3 := bit 3
  have b4 := bit 4; have b5 := bit 5; have b6 := bit 6; have b7 := bit 7
  apply BitVec.eq_of_toNat_eq
  simp only [byteOfBits, List.foldl_cons, List.foldl_nil, BitVec.toNat_ofNat, Nat.add_zero, Nat.add_assoc,
    Nat.reduceAdd] at b0 b1 b2 b3 b4 b5 b6 b7 ⊢
  omega

/-- The four bytes of a register, least significant first (R57). -/
def regBytes (v : Reg) : List Byte :=
  [BitVec.ofNat 8 v.toNat, BitVec.ofNat 8 (v.toNat >>> 8), BitVec.ofNat 8 (v.toNat >>> 16),
    BitVec.ofNat 8 (v.toNat >>> 24)]

@[simp] theorem length_regBytes (v : Reg) : (regBytes v).length = 4 := rfl

/-- `LE32` of a register never overflows (R114, R115). -/
theorem le32_toNat (v : Reg) : le32 v.toNat = .ok (regBytes v) := by
  have hfit : ¬((v.toNat : Int) < 0 ∨ ((2 ^ 32 : Nat) : Int) ≤ (v.toNat : Int)) := by
    have := v.isLt
    omega
  have byte := byteOfBits_testBit v.toNat
  simp only [le32, pack, toBits, if_neg hfit, regBytes]
  simpa [toBytes, splitBytes, List.range_succ, ← byte 8, ← byte 16, ← byte 24] using byte 0

/-- The length field reads back the register written into it (R57, R146). -/
theorem State.lengthField_of_patched {s : State} {m : Memory Byte} {v : Reg}
    (h : s.out = m.writeAll Config.lengthOffset (regBytes v)) : s.lengthField = v.toNat := by
  have hv := v.isLt
  simp only [State.lengthField, State.outByte, h, Memory.read_writeAll _ (0 : Byte), length_regBytes,
    Config.lengthOffset]
  simp [regBytes, Nat.shiftRight_eq_div_pow]
  omega

end Sys2Proof.Machine
end

section
/-! SUPPORT. What the selected body token costs: it is well formed, stays in its row, and takes at most four bytes of
`OUT` for each pixel (R93, R94, R149 to R151). -/

namespace Sys2Proof.Machine

open Sys2Proof.Laws

theorem vrepToken_wellFormed {n : Nat} (h1 : 1 ≤ n) (hn : n ≤ Config.width) : (vrepToken n).WellFormed := by
  unfold vrepToken
  split
  · simp_all [Instr.WellFormed, Instr.wellFormed]
  · simp_all [Instr.WellFormed, Instr.wellFormed]

theorem hrepToken_wellFormed {n : Nat} (p : Pixel) (h1 : 1 ≤ n) (hn : n ≤ Config.width) :
    (hrepToken n p).WellFormed := by
  unfold hrepToken
  split
  · rfl
  · split
    · simp_all [Instr.WellFormed, Instr.wellFormed]
      omega
    · simp_all [Instr.WellFormed, Instr.wellFormed]

theorem litsToken_wellFormed {ps : List Pixel} (h2 : 2 ≤ ps.length) (hn : ps.length ≤ Config.width) :
    (litsToken ps).WellFormed := by
  unfold litsToken
  split
  · simp_all [Instr.WellFormed, Instr.wellFormed]
  · simp_all [Instr.WellFormed, Instr.wellFormed]

/-- The selected token is well formed, covers at least one pixel and ends inside its row (R136, R149, R150). -/
theorem selectToken_legal (F : Image) (r : Nat) {c : Nat} (hc : c < Config.width) :
    (selectToken F r c).WellFormed ∧ 1 ≤ pixelCount (selectToken F r c) ∧
      c + pixelCount (selectToken F r c) ≤ Config.width := by
  rcases selectToken_cases F r hc with ⟨_, h1, hn, he⟩ | ⟨_, _, h2, hn, he⟩ | ⟨_, _, he⟩ | ⟨_, _, h2, hn, he⟩
  · rw [he, pixelCount_vrepToken]
    exact ⟨vrepToken_wellFormed h1 (by omega), h1, hn⟩
  · rw [he, pixelCount_hrepToken]
    exact ⟨hrepToken_wellFormed _ (by omega) (by omega), by omega, hn⟩
  · rw [he]
    exact ⟨rfl, Nat.le_refl 1, hc⟩
  · rw [he, pixelCount_litsToken, length_pixelsFrom]
    exact ⟨litsToken_wellFormed (by simpa using h2) (by rw [length_pixelsFrom]; omega), by omega, hn⟩

/-- A token of pixels takes at most four bytes for each of them (R94, R151). -/
theorem length_tokenBytes_le_four_pixelCount {i : Instr} (hw : i.WellFormed) (hp : 1 ≤ pixelCount i) :
    (tokenBytes i).length ≤ 4 * pixelCount i := by
  cases i with
  | vrepS n =>
    rw [TokenLength.vrepS n hw]
    simp only [TokenLength.expected, pixelCount] at hp ⊢
    omega
  | vrepL n =>
    rw [TokenLength.vrepL n hw]
    simp only [TokenLength.expected, pixelCount] at hp ⊢
    omega
  | pix p => exact Nat.le_refl 4
  | hrepS n p =>
    rw [TokenLength.hrepS n p hw]
    simp only [TokenLength.expected, pixelCount] at hp ⊢
    omega
  | hrepL n p =>
    rw [TokenLength.hrepL n p hw]
    simp [Instr.WellFormed, Instr.wellFormed] at hw
    simp only [TokenLength.expected, pixelCount]
    omega
  | litsS ps =>
    rw [TokenLength.litsS ps hw]
    simp [Instr.WellFormed, Instr.wellFormed] at hw
    simp only [TokenLength.expected, pixelCount]
    omega
  | litsL ps =>
    rw [TokenLength.litsL ps hw]
    simp [Instr.WellFormed, Instr.wellFormed] at hw
    simp only [TokenLength.expected, pixelCount]
    omega
  | hdr | eol | eoi | pad | nop | compose | encode | reserved => simp [pixelCount] at hp

end Sys2Proof.Machine
end

section
/-! SUPPORT. The meaning of each token where it is the enabled step, as one equation (R131 to R146), and the refusal
where it is not. -/

namespace Sys2Proof.Machine

open Sys2Proof.Laws

variable {s t : State}

/-- Which token is enabled in which phase (R26, R40). -/
theorem State.nextToken_cases {i : Instr} (h : s.nextToken = some i) :
    (s.phase = .header ∧ i = .hdr 0) ∨
    (s.phase = .body ∧ s.row.toNat < Config.height ∧ s.col.toNat < Config.width ∧
      i = selectToken s.px s.row.toNat s.col.toNat) ∨
    (s.phase = .body ∧ s.col.toNat = Config.width ∧ i = .eol) ∨
    (s.phase = .eoi ∧ i = .eoi) ∨ (s.phase = .pad ∧ i = .pad) ∨ (s.phase = .patch ∧ i = .hdr s.byteCount) := by
  unfold State.nextToken at h
  cases hp : s.phase with
  | idle => simp [hp] at h
  | compose => simp [hp] at h
  | header => simp_all
  | body =>
    simp only [hp] at h
    split at h
    · simp_all
    · split at h
      · simp_all
      · cases h
  | eoi => simp_all
  | pad => simp_all
  | patch => simp_all
  | fault => simp [hp] at h

/-- The enabled step of a scan inside the image (R136). -/
theorem State.nextToken_body (hp : s.phase = .body) (hr : s.row.toNat < Config.height)
    (hc : s.col.toNat < Config.width) : s.nextToken = some (selectToken s.px s.row.toNat s.col.toNat) := by
  simp only [State.nextToken, hp, if_neg (Nat.ne_of_lt hc), hr, hc, and_self, if_true]

/-- A token of pixels is a body step (R137 to R140). -/
theorem exec_of_pixels {i : Instr} (h : 1 ≤ pixelCount i) (s : State) :
    exec i s = whenSelected i s (bodyStep i) := by
  cases i with
  | vrepS | vrepL | pix | hrepS | hrepL | litsS | litsL => rfl
  | hdr | eol | eoi | pad | nop | compose | encode | reserved => simp [pixelCount] at h

/-- `COL` after a token that stays in its row, as a number. -/
theorem State.colAfter_toNat {n : Nat} (h : s.col.toNat + n ≤ Config.width) :
    (s.colAfter n).toNat = s.col.toNat + n := by
  simp only [Config.width] at h
  simp only [State.colAfter, BitVec.toNat_add, BitVec.toNat_ofNat]
  omega

/-- The selected body token: its bytes, then `COL` moves on by its count; the stall guard never holds (R141, R148). -/
theorem exec_selectToken {i : Instr} (hp : s.phase = .body) (hr : s.row.toNat < Config.height)
    (hc : s.col.toNat < Config.width) (hi : i = selectToken s.px s.row.toNat s.col.toNat) :
    exec i s = emitThen (tokenBytes i) (fun t => t.advance (pixelCount i)) s := by
  obtain ⟨_, h1, hn⟩ := selectToken_legal s.px s.row.toNat hc
  rw [← hi] at h1 hn
  have hmove : s.col < s.colAfter (pixelCount i) := by
    rw [BitVec.lt_def, State.colAfter_toNat hn]
    omega
  rw [exec_of_pixels h1, whenSelected_of_selected (hi ▸ State.nextToken_body hp hr hc), bodyStep, if_pos hmove]

theorem exec_eol (hp : s.phase = .body) (hc : s.col.toNat = Config.width) :
    exec .eol s = emitThen (tokenBytes .eol) endRow s :=
  whenSelected_of_selected (by simp only [State.nextToken, hp, hc, if_true])

theorem exec_eoi (hp : s.phase = .eoi) :
    exec .eoi s = emitThen (tokenBytes .eoi) (fun t => { t with phase := .pad }) s :=
  whenSelected_of_selected (by simp only [State.nextToken, hp])

theorem exec_pad (hp : s.phase = .pad) :
    exec .pad s = emitThen (List.replicate (padCount s.byteCount.toNat) 0x00)
      (fun t => { t with phase := .patch }) s := by
  have hbytes (k : Nat) : (List.replicate k (tokenBytes .pad)).flatten = List.replicate k 0x00 := by
    simp [tokenBytes]
  rw [← hbytes]
  exact whenSelected_of_selected (by simp only [State.nextToken, hp])

/-- The header step: 48 bytes from the start of `OUT`, then the body (R131). -/
theorem exec_hdr_header (hp : s.phase = .header) :
    exec (.hdr 0) s = .next { ({ s with byteCount := 0 } : State).append (tokenBytes (.hdr 0)) with
      row := 0, col := 0, phase := .body } := by
  have hrun : exec (.hdr 0) s = headerStep s := by
    rw [exec, execHdr, whenSelected_of_selected (by simp only [State.nextToken, hp]), if_neg (by simp [hp])]
  have hbytes : headerBytes 0 = .ok (tokenBytes (.hdr 0)) := by
    have h0 : (0 : Reg).toNat = 0 := rfl
    simp only [tokenBytes, h0, headerBytes_zero]
  rw [hrun, headerStep, hbytes]
  exact emitThen_of_fits (by simp [length_header])

/-- The patch step: the byte count as the length field, then completion (R146). -/
theorem exec_hdr_patch (hp : s.phase = .patch) :
    exec (.hdr s.byteCount) s =
      .next ({ s with out := s.out.writeAll Config.lengthOffset (regBytes s.byteCount) }).finishEncode := by
  rw [exec, execHdr, whenSelected_of_selected (by simp only [State.nextToken, hp]), if_pos hp, patchStep,
    le32_toNat]

/-- A token that is not the enabled one is refused (R40; log 6). -/
theorem exec_of_not_selected {i : Instr} {part : StreamPart} {bytes : List Byte}
    (he : encode i = .stream part bytes) (h : s.nextToken ≠ some i) : exec i s = .refused .tokenNotSelected := by
  cases i with
  | hdr | vrepS | vrepL | pix | hrepS | hrepL | litsS | litsL | eol | eoi | pad => exact if_neg h
  | nop | compose | encode | reserved => cases he

end Sys2Proof.Machine
end

section
/-! SUPPORT. Host moves: a written command is one transaction among the others (R180, R186), and exactly the offered
transactions complete. -/

namespace Sys2Proof.Machine

variable {s t : State}

/-- The meaning of a command is the write of its value to `CMD` (R97, R98, R180). -/
theorem exec_decodeCommand (v : Reg) (s : State) : exec (decodeCommand v) s = hostTransact (.writeReg 0 v) s := by
  by_cases h0 : v = 0
  · subst h0; rfl
  by_cases h1 : v = 1
  · subst h1; rfl
  by_cases h2 : v = 2
  · subst h2; rfl
  have h3 : 3 ≤ v.toNat := by bv_omega
  have hcmd (t : State) : t.command v = t.takeFault (.illegalCommand v) := by
    simp only [State.command, if_neg h0, if_neg h1, if_neg h2]
  simp only [decodeCommand, if_neg h0, if_neg h1, if_neg h2, exec, execReserved, if_pos h3, hostTransact,
    hostWriteReg, hcmd]

/-- The host's turn takes the move and forgets the value returned before (log 2). -/
theorem State.afterFetch_of_host {m : HostMove} {rest : List Turn} (h : s.turns = .host m :: rest) :
    s.afterFetch = { s with turns := rest, hostResult := none } := by simp only [State.afterFetch, h]

/-- A step on a host move is that transaction, commands included. -/
theorem step_host {m : HostMove} {rest : List Turn} (h : s.turns = .host m :: rest) :
    step s = hostTransact m { s with turns := rest, hostResult := none } := by
  rw [step, State.fetch_host h, State.afterFetch_of_host h]
  rcases hostAction_cases m with ⟨v, rfl, ha⟩ | ⟨_, ha⟩
  · simp only [ha, exec_decodeCommand]
  · simp only [ha]

/-- The block's turn takes the turn and nothing else. -/
theorem State.afterFetch_of_blockTurn (h : s.blockTurn = true) : s.afterFetch = { s with turns := s.turns.tail } := by
  unfold State.afterFetch
  split
  · rename_i hnil
    rw [hnil, List.tail_nil, ← hnil]
  · rename_i hcons
    rw [hcons, List.tail_cons]
  · rename_i hhost
    simp [State.blockTurn, hhost] at h

/-- A move that is not the block's is the host's. -/
theorem State.turns_of_not_blockTurn (h : s.blockTurn = false) : ∃ m rest, s.turns = .host m :: rest := by
  unfold State.blockTurn at h
  split at h
  · cases h
  · cases h
  · exact ⟨_, _, ‹_›⟩

theorem hostReadByte_next (byte : Byte) (s : State) : ∃ t, hostReadByte byte s = .next t := by
  unfold hostReadByte
  split <;> exact ⟨_, rfl⟩

/-- An offered transaction completes (R186). -/
theorem hostTransact_of_offered {m : HostMove} (h : m.isOffered = true) (s : State) :
    ∃ t, hostTransact m s = .next t := by
  cases m with
  | writePlane p r c bit =>
    have hin : planeInside p r c = true := h
    simp only [hostTransact, hin, if_true, hostWrite_next]
  | readPlane => cases h
  | writeFrame r c k byte =>
    have hin : frameInside r c k = true := h
    simp only [hostTransact, hin, if_true, hostWrite_next]
  | readFrame r c k =>
    have hin : frameInside r c k = true := h
    simp only [hostTransact, hin, if_true, hostReadByte_next]
  | writeOut => cases h
  | readOut a =>
    have hin : a < Config.outCap := of_decide_eq_true h
    simp only [hostTransact, hin, if_true, hostReadByte_next]
  | writeReg number v =>
    match number, h with
    | 0, _ => exact hostWrite_next (fun t => t.command v) s
    | 1, _ => exact hostWrite_next (fun t => { t with nplanes := v }) s
    | 2, _ | 3, _ => exact ⟨s, rfl⟩
  | readReg number =>
    match number, h with
    | 0, _ | 1, _ | 2, _ | 3, _ => exact ⟨_, rfl⟩
  | assertReset => exact ⟨_, rfl⟩

/-- A transaction that is not offered is refused (R31, R59, R186). -/
theorem hostTransact_of_not_offered {m : HostMove} (h : m.isOffered = false) (s : State) :
    ∃ r, hostTransact m s = .refused r := by
  cases m with
  | writePlane p r c bit => exact ⟨_, if_neg (Bool.eq_false_iff.mp h)⟩
  | readPlane => exact ⟨_, rfl⟩
  | writeFrame r c k byte => exact ⟨_, if_neg (Bool.eq_false_iff.mp h)⟩
  | readFrame r c k => exact ⟨_, if_neg (Bool.eq_false_iff.mp h)⟩
  | writeOut => exact ⟨_, rfl⟩
  | readOut a => exact ⟨_, if_neg (of_decide_eq_false h)⟩
  | writeReg number v =>
    match number, h with
    | _ + 4, _ => exact ⟨_, rfl⟩
  | readReg number =>
    match number, h with
    | _ + 4, _ => exact ⟨_, rfl⟩
  | assertReset => cases h

end Sys2Proof.Machine
end

section
/-! SUPPORT. Everything a step can do, as a relation between the state with its move taken and the next state: one
constructor for each thing the block does on its turn and for each thing a host transaction does. Every invariant is
proved by cases on these two relations. -/

namespace Sys2Proof.Machine

open Sys2Proof.Laws

/-- What the block does on its turn (R40). -/
inductive BlockEffect (s : State) : State → Prop
  /-- No step is enabled (R187, R221). -/
  | rest (hp : s.phase = .idle ∨ s.phase = .fault) : BlockEffect s s
  /-- The compose step (R126). The filled store is a variable, so that comparing two states never unfolds it. -/
  | compose (filled : Memory Byte) (hp : s.phase = .compose)
    (hfilled : filled = s.frame.fill Config.frameSize s.composedAt) :
    BlockEffect s ({ s with frame := filled }).finishCompose
  /-- The compose step with too many planes (R121). -/
  | tooManyPlanes (hp : s.phase = .compose) : BlockEffect s (s.takeFault (.tooManyPlanes s.nplanes))
  /-- The header step (R131). -/
  | header (bytes : List Byte) (hp : s.phase = .header) (hlen : bytes.length = 48) :
    BlockEffect s { ({ s with byteCount := 0 } : State).append bytes with row := 0, col := 0, phase := .body }
  /-- A body step of `n` pixels (R137 to R140), which fits its row and takes at most four bytes for each (R151). -/
  | pixels (n : Nat) (bytes : List Byte) (hp : s.phase = .body) (hrow : s.row.toNat < Config.height)
    (hcol : s.col.toNat + n ≤ Config.width) (hlen : bytes.length ≤ 4 * n)
    (hfit : s.byteCount.toNat + bytes.length ≤ Config.outCap) : BlockEffect s ((s.append bytes).advance n)
  /-- The end-of-row step (R142). -/
  | endOfRow (bytes : List Byte) (hp : s.phase = .body) (hcol : s.col.toNat = Config.width) (hlen : bytes.length = 2)
    (hfit : s.byteCount.toNat + bytes.length ≤ Config.outCap) : BlockEffect s (endRow (s.append bytes))
  /-- The end-of-image step (R144). -/
  | endOfImage (bytes : List Byte) (hp : s.phase = .eoi) (hlen : bytes.length = 3)
    (hfit : s.byteCount.toNat + bytes.length ≤ Config.outCap) : BlockEffect s { s.append bytes with phase := .pad }
  /-- The padding step (R145). -/
  | padding (bytes : List Byte) (hp : s.phase = .pad) (hlen : bytes.length = padCount s.byteCount.toNat)
    (hfit : s.byteCount.toNat + bytes.length ≤ Config.outCap) : BlockEffect s { s.append bytes with phase := .patch }
  /-- The patch step (R146). -/
  | patch (hp : s.phase = .patch) :
    BlockEffect s ({ s with out := s.out.writeAll Config.lengthOffset (regBytes s.byteCount) }).finishEncode

/-- What a host transaction does (R186). -/
inductive HostEffect (s : State) : State → Prop
  /-- A write that changes nothing: in `P_FAULT`, of `STATUS` or `LENGTH`, or of `NOP` (R29, R30, R183, R187). -/
  | ignored : HostEffect s s
  /-- A write while busy (R65, R204). -/
  | violation : HostEffect s (s.takeFault .busyViolation)
  /-- An accepted `COMPOSE` command (R181). -/
  | startCompose (hp : s.phase ≠ .fault) : HostEffect s s.startCompose
  /-- An accepted `ENCODE` command (R182). -/
  | startEncode (hp : s.phase ≠ .fault) : HostEffect s s.startEncode
  /-- A reserved command (R184, R203). -/
  | illegal (v : Reg) : HostEffect s (s.takeFault (.illegalCommand v))
  /-- An accepted write of `NPLANES` (R24). -/
  | writeNplanes (v : Reg) : HostEffect s { s with nplanes := v }
  /-- An accepted write of `PLANE` (R21). -/
  | writePlane (p r c : Nat) (bit : Bool) (hin : planeInside p r c = true) :
    HostEffect s { s with plane := s.plane.write (planeIndex p r c) bit }
  /-- An accepted write of `FRAME` (R22). -/
  | writeFrame (r c k : Nat) (byte : Byte) (hin : frameInside r c k = true) :
    HostEffect s { s with frame := s.frame.write (frameIndex r c k) byte }
  /-- A read (R61). -/
  | answer (v : Reg) (draw : Nat) : HostEffect s { s with hostResult := some v, fresh := draw }
  /-- A reset (R220). -/
  | reset : HostEffect s s.resetBlock

variable {s t : State}

/-- The step of the selected token is one of the block's. -/
theorem BlockEffect.of_exec {i : Instr} (hi : s.nextToken = some i) (h : exec i s = .next t) : BlockEffect s t := by
  rcases State.nextToken_cases hi with ⟨hp, rfl⟩ | ⟨hp, hr, hc, hsel⟩ | ⟨hp, hc, rfl⟩ | ⟨hp, rfl⟩ | ⟨hp, rfl⟩ |
    ⟨hp, rfl⟩
  · rw [exec_hdr_header hp] at h
    cases h
    exact .header _ hp (length_header 0)
  · rw [exec_selectToken hp hr hc hsel] at h
    obtain ⟨hfit, rfl⟩ := emitThen_cases h
    obtain ⟨hw, h1, hn⟩ := selectToken_legal s.px s.row.toNat hc
    rw [← hsel] at hw h1 hn
    exact .pixels _ _ hp hr hn (length_tokenBytes_le_four_pixelCount hw h1) hfit
  · rw [exec_eol hp hc] at h
    obtain ⟨hfit, rfl⟩ := emitThen_cases h
    exact .endOfRow _ hp hc rfl hfit
  · rw [exec_eoi hp] at h
    obtain ⟨hfit, rfl⟩ := emitThen_cases h
    exact .endOfImage _ hp rfl hfit
  · rw [exec_pad hp] at h
    obtain ⟨hfit, rfl⟩ := emitThen_cases h
    exact .padding _ hp List.length_replicate hfit
  · rw [exec_hdr_patch hp] at h
    cases h
    exact .patch hp

/-- An accepted, ignored or violating host write, from what it does when accepted. -/
theorem HostEffect.of_hostWrite {effect : State → State} (h : hostWrite effect s = .next t)
    (heffect : s.phase ≠ .fault → HostEffect s (effect s)) : HostEffect s t := by
  rcases hostWrite_cases h with ⟨_, rfl⟩ | ⟨_, _, rfl⟩ | ⟨hp, _, rfl⟩
  · exact .ignored
  · exact .violation
  · exact heffect hp

theorem HostEffect.of_hostReadByte {byte : Byte} (h : hostReadByte byte s = .next t) : HostEffect s t := by
  rcases hostReadByte_cases h with ⟨_, rfl⟩ | ⟨_, rfl⟩
  · exact .answer _ _
  · exact .answer _ s.fresh

/-- What an accepted command does, by its value (R180). -/
theorem HostEffect.of_command (v : Reg) (hp : s.phase ≠ .fault) : HostEffect s (s.command v) := by
  unfold State.command
  split
  · exact .ignored
  · split
    · exact .startCompose hp
    · split
      · exact .startEncode hp
      · exact .illegal v

theorem HostEffect.of_hostWriteReg {number : Nat} {v : Reg} (h : hostWriteReg number v s = .next t) :
    HostEffect s t := by
  match number, h with
  | 0, h => exact .of_hostWrite (effect := fun t => t.command v) h (.of_command v)
  | 1, h => exact .of_hostWrite (effect := fun t => { t with nplanes := v }) h fun _ => .writeNplanes v
  | 2, rfl | 3, rfl => exact .ignored

theorem HostEffect.of_hostReadReg {number : Nat} (h : hostReadReg number s = .next t) : HostEffect s t := by
  match number, h with
  | 0, rfl | 1, rfl | 2, rfl | 3, rfl => exact .answer _ s.fresh

/-- Every transaction is one of the host's effects. -/
theorem HostEffect.of_hostTransact {m : HostMove} (h : hostTransact m s = .next t) : HostEffect s t := by
  cases m with
  | writePlane p r c bit =>
    simp only [hostTransact] at h
    split at h
    · exact .of_hostWrite h fun _ => .writePlane p r c bit ‹_›
    · cases h
  | readPlane => cases h
  | writeFrame r c k byte =>
    simp only [hostTransact] at h
    split at h
    · exact .of_hostWrite h fun _ => .writeFrame r c k byte ‹_›
    · cases h
  | readFrame =>
    simp only [hostTransact] at h
    split at h
    · exact .of_hostReadByte h
    · cases h
  | writeOut => cases h
  | readOut =>
    simp only [hostTransact] at h
    split at h
    · exact .of_hostReadByte h
    · cases h
  | writeReg => exact .of_hostWriteReg h
  | readReg => exact .of_hostReadReg h
  | assertReset =>
    cases h
    exact .reset

/-- A step on the block's turn is one of the block's effects. -/
theorem BlockEffect.of_step (hb : s.blockTurn = true) (h : step s = .next t) : BlockEffect s.afterFetch t := by
  rcases step_block_cases hb h with ⟨i, hi, he⟩ | ⟨hp, hc⟩ | ⟨hp, rfl⟩
  · exact .of_exec (by rwa [State.afterFetch_nextToken]) he
  · have hp : s.afterFetch.phase = .compose := by rwa [State.afterFetch_phase]
    rcases composeStep_cases hc with ⟨_, rfl⟩ | ⟨_, rfl⟩
    · exact .tooManyPlanes hp
    · exact .compose _ hp rfl
  · exact .rest (by rwa [State.afterFetch_phase])

/-- Every step is an effect of the block or of the host. -/
theorem step_effect (h : step s = .next t) : BlockEffect s.afterFetch t ∨ HostEffect s.afterFetch t := by
  cases hb : s.blockTurn with
  | true => exact .inl (.of_step hb h)
  | false =>
    obtain ⟨m, rest, hm⟩ := State.turns_of_not_blockTurn hb
    rw [step_host hm, ← State.afterFetch_of_host hm] at h
    exact .inr (.of_hostTransact h)

/-- A property that taking the move, every effect of the block and every effect of the host keep is kept by every
step. -/
theorem step_keeps {P : State → Prop} (hfetch : ∀ s : State, P s → P s.afterFetch)
    (hblock : ∀ {s t}, BlockEffect s t → P s → P t) (hhost : ∀ {s t}, HostEffect s t → P s → P t)
    (hs : P s) (h : step s = .next t) : P t := by
  rcases step_effect h with h | h
  · exact hblock h (hfetch s hs)
  · exact hhost h (hfetch s hs)

end Sys2Proof.Machine
end

section
/-! SUPPORT. `STATUS` agrees with `PHASE` after every effect (R29, R200). -/

namespace Sys2Proof.Machine

variable {s t : State}

/-- The fault entry sets `STATUS` as `P_FAULT` has it (R205). -/
theorem State.takeFault_statusInv (s : State) (f : FaultCause) : (s.takeFault f).StatusInv where
  busy := rfl
  fault := rfl
  code := by cases f <;> simp [FaultCause.code]
  known := by cases f <;> simp [FaultCause.code]

/-- Outside the fault entry and the reset only `BUSY` has to follow `PHASE`. -/
theorem State.StatusInv.of_busy (hs : s.StatusInv) (hbusy : t.status.busy = t.phase.isBusy)
    (hfault : t.status.fault = s.status.fault) (hcode : t.status.faultCode = s.status.faultCode)
    (hp : t.phase = .fault ↔ s.phase = .fault) : t.StatusInv where
  busy := hbusy
  fault := by rw [hfault, hs.fault, decide_eq_decide, hp]
  code := by rw [hcode, hfault, hs.code]
  known := hcode ▸ hs.known

/-- `STATUS` and `PHASE` alone matter. -/
theorem State.StatusInv.congr (hs : s.StatusInv) (hstatus : t.status = s.status) (hp : t.phase = s.phase) :
    t.StatusInv := hs.of_busy (by rw [hstatus, hp, hs.busy]) (by rw [hstatus]) (by rw [hstatus]) (by rw [hp])

theorem State.StatusInv.afterFetch (s : State) (hs : s.StatusInv) : s.afterFetch.StatusInv :=
  hs.congr s.afterFetch_status s.afterFetch_phase

/-- A step from one phase of a running `ENCODE` to another keeps the flags. -/
theorem State.StatusInv.of_encode (hs : s.StatusInv) (hstatus : t.status = s.status) (hp : s.phase.isEncode = true)
    (hp' : t.phase.isEncode = true) : t.StatusInv := by
  have busy_of_encode {p : Phase} (h : p.isEncode = true) : p.isBusy = true ∧ p ≠ .fault := by
    cases p <;> simp_all [Phase.isEncode, Phase.isBusy]
  obtain ⟨hbusy, hne⟩ := busy_of_encode hp
  obtain ⟨hbusy', hne'⟩ := busy_of_encode hp'
  exact hs.of_busy (by rw [hstatus, hs.busy, hbusy, hbusy']) (by rw [hstatus]) (by rw [hstatus]) (iff_of_false hne' hne)

/-- The end-of-row step stays in `ENCODE` (R142). -/
theorem endRow_isEncode (h : s.phase.isEncode = true) : (endRow s).phase.isEncode = true := by
  rw [endRow_phase]
  split
  · rfl
  · exact h

theorem BlockEffect.keeps_statusInv (h : BlockEffect s t) (hs : s.StatusInv) : t.StatusInv := by
  cases h with
  | rest => exact hs
  | compose filled hp => exact hs.of_busy rfl rfl rfl (by simp [hp])
  | tooManyPlanes => exact s.takeFault_statusInv _
  | header bytes hp => exact hs.of_encode rfl (by rw [hp]; rfl) rfl
  | pixels n bytes hp => exact hs.congr rfl rfl
  | endOfRow bytes hp => exact hs.of_encode rfl (by rw [hp]; rfl) (endRow_isEncode (by simp [hp, Phase.isEncode]))
  | endOfImage bytes hp => exact hs.of_encode rfl (by rw [hp]; rfl) rfl
  | padding bytes hp => exact hs.of_encode rfl (by rw [hp]; rfl) rfl
  | patch hp => exact hs.of_busy rfl rfl rfl (by simp [hp])

theorem HostEffect.keeps_statusInv (h : HostEffect s t) (hs : s.StatusInv) : t.StatusInv := by
  cases h with
  | ignored => exact hs
  | violation => exact s.takeFault_statusInv _
  | startCompose hp => exact hs.of_busy rfl rfl rfl (by simp [hp])
  | startEncode hp => exact hs.of_busy rfl rfl rfl (by simp [hp])
  | illegal v => exact s.takeFault_statusInv _
  | writeNplanes | writePlane | writeFrame | answer => exact hs.congr rfl rfl
  | reset => exact ⟨rfl, rfl, by simp, by simp⟩

end Sys2Proof.Machine
end

section
/-! SUPPORT. The stores keep their extents and the canonical form after every effect (R21 to R23, R59; log 3). -/

namespace Sys2Proof.Machine

variable {s t : State}

/-- The contents of the three stores alone matter. -/
theorem State.StoresInv.congr (hs : s.StoresInv) (hplane : t.plane = s.plane) (hframe : t.frame = s.frame)
    (hout : t.out = s.out) : t.StoresInv where
  plane := hplane ▸ hs.plane
  frame := hframe ▸ hs.frame
  out := hout ▸ hs.out
  planeExtent := hplane ▸ hs.planeExtent
  frameExtent := hframe ▸ hs.frameExtent
  outExtent := hout ▸ hs.outExtent

theorem State.StoresInv.afterFetch (s : State) (hs : s.StoresInv) : s.afterFetch.StoresInv :=
  hs.congr s.afterFetch_plane s.afterFetch_frame s.afterFetch_out

/-- Writing bytes that fit `OUT`, with `PLANE` and `FRAME` as they are. -/
theorem State.StoresInv.writeOut {a : Nat} {bytes : List Byte} (hs : s.StoresInv) (hplane : t.plane = s.plane)
    (hframe : t.frame = s.frame) (hout : t.out = s.out.writeAll a bytes)
    (hfit : a + bytes.length ≤ Config.outCap) : t.StoresInv where
  plane := hplane ▸ hs.plane
  frame := hframe ▸ hs.frame
  out := hout ▸ Memory.wf_writeAll _ _ _ hs.out
  planeExtent := hplane ▸ hs.planeExtent
  frameExtent := hframe ▸ hs.frameExtent
  outExtent := hout ▸ Memory.within_writeAll _ _ _ hfit hs.outExtent

/-- A fault keeps a store or empties it (R187). -/
theorem State.StoresInv.takeFault (hs : s.StoresInv) (f : FaultCause) : (s.takeFault f).StoresInv where
  plane := s.takeFault_plane f ▸ hs.plane
  frame := by rw [s.takeFault_frame]; split <;> [exact Memory.wf_unspecified _; exact hs.frame]
  out := by rw [s.takeFault_out]; split <;> [exact Memory.wf_unspecified _; exact hs.out]
  planeExtent := s.takeFault_plane f ▸ hs.planeExtent
  frameExtent := by rw [s.takeFault_frame]; split <;> [exact Memory.within_unspecified _ _; exact hs.frameExtent]
  outExtent := by rw [s.takeFault_out]; split <;> [exact Memory.within_unspecified _ _; exact hs.outExtent]

theorem BlockEffect.keeps_storesInv (h : BlockEffect s t) (hs : s.StoresInv) : t.StoresInv := by
  cases h with
  | rest => exact hs
  | compose filled hp hfilled =>
    exact { hs with frame := hfilled ▸ Memory.wf_fill _ _ _, frameExtent := hfilled ▸ Memory.within_fill _ _ _ }
  | tooManyPlanes => exact hs.takeFault _
  | header bytes hp hlen => exact hs.writeOut rfl rfl rfl (by simp [hlen])
  | pixels n bytes hp hrow hcol hlen hfit => exact hs.writeOut rfl rfl rfl hfit
  | endOfRow bytes hp hcol hlen hfit => exact hs.writeOut rfl rfl rfl hfit
  | endOfImage bytes hp hlen hfit => exact hs.writeOut rfl rfl rfl hfit
  | padding bytes hp hlen hfit => exact hs.writeOut rfl rfl rfl hfit
  | patch => exact hs.writeOut rfl rfl rfl (by simp)

theorem HostEffect.keeps_storesInv (h : HostEffect s t) (hs : s.StoresInv) : t.StoresInv := by
  cases h with
  | ignored => exact hs
  | violation => exact hs.takeFault _
  | illegal v => exact hs.takeFault _
  | startCompose | startEncode | writeNplanes | answer => exact hs.congr rfl rfl rfl
  | writePlane p r c bit hin =>
    exact { hs with
      plane := Memory.wf_write _ _ _ hs.plane
      planeExtent := Memory.within_write _ _ (planeIndex_lt hin) hs.planeExtent }
  | writeFrame r c k byte hin =>
    exact { hs with
      frame := Memory.wf_write _ _ _ hs.frame
      frameExtent := Memory.within_write _ _ (frameIndex_lt hin) hs.frameExtent }
  | reset => exact ⟨rfl, rfl, rfl, rfl, rfl, rfl⟩

end Sys2Proof.Machine
end

section
/-! SUPPORT. The scan stays inside the image and the byte count within its bound after every effect (R26, R150 to
R152). -/

namespace Sys2Proof.Machine

variable {s t : State}

/-- Only phase, scan position and byte count matter. -/
theorem State.ScanInv.congr (hs : s.ScanInv) (hp : t.phase = s.phase) (hrow : t.row = s.row) (hcol : t.col = s.col)
    (hcount : t.byteCount = s.byteCount) : t.ScanInv where
  row := by rw [hp, hrow]; exact hs.row
  col := by rw [hp, hcol]; exact hs.col
  body := by rw [hp, hrow, hcol, hcount]; exact hs.body
  eoi := by rw [hp, hcount]; exact hs.eoi
  pad := by rw [hp, hcount]; exact hs.pad
  patch := by rw [hp, hcount]; exact hs.patch
  aligned := by rw [hp, hcount]; exact hs.aligned

theorem State.ScanInv.afterFetch (s : State) (hs : s.ScanInv) : s.afterFetch.ScanInv :=
  hs.congr s.afterFetch_phase s.afterFetch_row s.afterFetch_col s.afterFetch_byteCount

/-- In each phase the scan invariant says what that phase needs and nothing else. -/
theorem State.ScanInv.of_body (hp : s.phase = .body) (hrow : s.row.toNat < Config.height)
    (hcol : s.col.toNat ≤ Config.width)
    (hcount : s.byteCount.toNat ≤ 48 + 7682 * s.row.toNat + 4 * s.col.toNat) : s.ScanInv := by
  constructor <;> simp_all

theorem State.ScanInv.of_eoi (hp : s.phase = .eoi) (h : s.byteCount.toNat ≤ 48 + 7682 * Config.height) :
    s.ScanInv := by
  constructor <;> simp_all

theorem State.ScanInv.of_pad (hp : s.phase = .pad) (h : s.byteCount.toNat ≤ 48 + 7682 * Config.height + 3) :
    s.ScanInv := by
  constructor <;> simp_all

theorem State.ScanInv.of_patch (hp : s.phase = .patch) (h : s.byteCount.toNat ≤ Config.outCap)
    (h4 : s.byteCount.toNat % Config.alignment = 0) : s.ScanInv := by
  constructor <;> simp_all

theorem State.ScanInv.of_not_scanning
    (hp : s.phase = .idle ∨ s.phase = .compose ∨ s.phase = .header ∨ s.phase = .fault) : s.ScanInv := by
  rcases hp with hp | hp | hp | hp <;> constructor <;> simp [hp]

theorem State.ScanInv.takeFault (s : State) (f : FaultCause) : (s.takeFault f).ScanInv :=
  .of_not_scanning (.inr (.inr (.inr rfl)))

/-- The last row ends at row 1080, every other one at a row of the image (R142). -/
theorem State.ScanInv.endOfRow {bytes : List Byte} (hs : s.ScanInv) (hp : s.phase = .body)
    (hcol : s.col.toNat = Config.width) (hlen : bytes.length = 2)
    (hfit : s.byteCount.toNat + bytes.length ≤ Config.outCap) : (endRow (s.append bytes)).ScanInv := by
  have hcount : (endRow (s.append bytes)).byteCount.toNat = s.byteCount.toNat + bytes.length :=
    State.append_byteCount_toNat hfit
  have hrow := hs.row hp
  have hbound := hs.body hp
  simp only [Config.height, Config.width] at hrow hcol
  have hnext : (s.row + 1).toNat = s.row.toNat + 1 := by bv_omega
  by_cases hlast : s.row + 1 = BitVec.ofNat 11 Config.height
  · have h1080 : s.row.toNat + 1 = 1080 := by rw [← hnext, hlast]; rfl
    refine .of_eoi (by rw [endRow_phase, State.append_row, if_pos hlast]) ?_
    simp only [hcount, Config.height]
    omega
  · have h1080 : s.row.toNat + 1 ≠ 1080 := fun h => hlast (BitVec.eq_of_toNat_eq (hnext.trans h))
    refine .of_body (by rw [endRow_phase, State.append_row, if_neg hlast, State.append_phase, hp]) ?_ ?_ ?_
    · simp only [endRow_row, State.append_row, hnext, Config.height]
      omega
    · simp
    · simp only [endRow_row, endRow_col, State.append_row, hnext, hcount]
      omega

/-- Padding a length to a multiple of 4 (R145). -/
theorem padCount_aligns (len : Nat) : padCount len ≤ 3 ∧ (len + padCount len) % 4 = 0 := by
  unfold padCount
  omega

theorem BlockEffect.keeps_scanInv (h : BlockEffect s t) (hs : s.ScanInv) : t.ScanInv := by
  cases h with
  | rest => exact hs
  | compose => exact .of_not_scanning (.inl rfl)
  | tooManyPlanes => exact .takeFault s _
  | header bytes hp hlen => exact .of_body rfl (by simp) (by simp) (by simp [hlen])
  | pixels n bytes hp hrow hcol hlen hfit =>
    have hcount := State.append_byteCount_toNat hfit
    have hmove : ((s.append bytes).colAfter n).toNat = s.col.toNat + n := State.colAfter_toNat hcol
    have hbound := hs.body hp
    refine .of_body hp hrow (by rwa [State.advance_col, hmove]) ?_
    rw [State.advance_byteCount, State.advance_row, State.advance_col, hcount, hmove, State.append_row]
    omega
  | endOfRow bytes hp hcol hlen hfit => exact hs.endOfRow hp hcol hlen hfit
  | endOfImage bytes hp hlen hfit =>
    have hcount := State.append_byteCount_toNat hfit
    have hbound := hs.eoi hp
    exact .of_pad rfl (by simp only [hcount]; omega)
  | padding bytes hp hlen hfit =>
    have hcount := State.append_byteCount_toNat hfit
    obtain ⟨_, h4⟩ := padCount_aligns s.byteCount.toNat
    exact .of_patch rfl (by simpa only [hcount] using hfit) (by simp only [hcount, hlen, Config.alignment, h4])
  | patch => exact .of_not_scanning (.inl rfl)

theorem HostEffect.keeps_scanInv (h : HostEffect s t) (hs : s.ScanInv) : t.ScanInv := by
  cases h with
  | ignored => exact hs
  | violation => exact .takeFault s _
  | startCompose => exact .of_not_scanning (.inr (.inl rfl))
  | startEncode => exact .of_not_scanning (.inr (.inr (.inl rfl)))
  | illegal v => exact .takeFault s _
  | writeNplanes | writePlane | writeFrame | answer => exact hs.congr rfl rfl rfl rfl
  | reset => exact .of_not_scanning (.inl rfl)

end Sys2Proof.Machine
end

section
/-! SUPPORT. What `OUT_VALID` and `LENGTH` claim holds after every effect (R29, R30, R152). -/

namespace Sys2Proof.Machine

variable {s t : State}

/-- Without a valid stream only `LENGTH` matters. -/
theorem State.LengthInv.of_invalid (hv : s.status.outValid = false) (hlen : s.length = 0) : s.LengthInv := by
  constructor <;> simp [hv, hlen]

theorem State.LengthInv.takeFault (s : State) (f : FaultCause) : (s.takeFault f).LengthInv := .of_invalid rfl rfl

/-- While `OUT`, `OUT_VALID` and `LENGTH` keep their values, only the phase may break the claim. -/
theorem State.LengthInv.of_same_stream (hs : s.LengthInv) (hv : t.status.outValid = s.status.outValid)
    (hlen : t.length = s.length) (hout : t.out = s.out)
    (hp : t.phase = s.phase ∨ t.phase = .idle ∨ t.phase = .compose) : t.LengthInv where
  quiet h := by
    rcases hp with hp | hp
    · exact hp ▸ hs.quiet (hv ▸ h)
    · exact hp
  zero h := hlen ▸ hs.zero (hv ▸ h)
  aligned h := hlen ▸ hs.aligned (hv ▸ h)
  bounded h := hlen ▸ hs.bounded (hv ▸ h)
  header h := by
    have hfield : t.lengthField = s.lengthField := by simp only [State.lengthField, State.outByte, hout]
    rw [hfield, hlen]
    exact hs.header (hv ▸ h)

theorem State.LengthInv.afterFetch (s : State) (hs : s.LengthInv) : s.afterFetch.LengthInv :=
  hs.of_same_stream (by rw [s.afterFetch_status]) s.afterFetch_length s.afterFetch_out (.inl s.afterFetch_phase)

/-- No stream is valid while `ENCODE` runs, so its steps before the patch step claim nothing (R182). -/
theorem State.LengthInv.of_encode (hs : s.LengthInv) (hp : s.phase.isEncode = true)
    (hv : t.status.outValid = s.status.outValid) (hlen : t.length = s.length) : t.LengthInv := by
  have hinvalid : s.status.outValid = false := by
    by_contra h
    rcases hs.quiet (by simpa using h) with hq | hq <;> simp [hq, Phase.isEncode] at hp
  exact .of_invalid (hv.trans hinvalid) (hlen.trans (hs.zero hinvalid))

/-- Completion of `ENCODE`: the byte count becomes `LENGTH` and stands in the header (R146). -/
theorem State.LengthInv.of_patch (hscan : s.ScanInv) (hp : s.phase = .patch) :
    ({ s with out := s.out.writeAll Config.lengthOffset (regBytes s.byteCount) }).finishEncode.LengthInv where
  quiet _ := .inl rfl
  zero h := by cases h
  aligned _ := hscan.aligned hp
  bounded _ := hscan.patch hp
  header _ := State.lengthField_of_patched rfl

theorem BlockEffect.keeps_lengthInv (h : BlockEffect s t) (hscan : s.ScanInv) (hs : s.LengthInv) : t.LengthInv := by
  cases h with
  | rest => exact hs
  | compose => exact hs.of_same_stream rfl rfl rfl (.inr (.inl rfl))
  | tooManyPlanes => exact .takeFault s _
  | header bytes hp | pixels n bytes hp | endOfRow bytes hp | endOfImage bytes hp | padding bytes hp =>
    exact hs.of_encode (by rw [hp]; rfl) rfl rfl
  | patch hp => exact .of_patch hscan hp

theorem HostEffect.keeps_lengthInv (h : HostEffect s t) (hs : s.LengthInv) : t.LengthInv := by
  cases h with
  | ignored => exact hs
  | violation => exact .takeFault s _
  | startCompose => exact hs.of_same_stream rfl rfl rfl (.inr (.inr rfl))
  | startEncode => exact .of_invalid rfl rfl
  | illegal v => exact .takeFault s _
  | writeNplanes | writePlane | writeFrame | answer => exact hs.of_same_stream rfl rfl rfl (.inl rfl)
  | reset => exact .of_invalid rfl rfl

end Sys2Proof.Machine
end

section
/-! SUPPORT. Progress: from a scan inside the image every enabled step has room in `OUT` (R41, R151). -/

namespace Sys2Proof.Machine

open Sys2Proof.Laws

variable {s : State}

/-- Where the bytes fit, `emit` answers a next state. -/
theorem emitThen_next {bytes : List Byte} {after : State → State}
    (h : s.byteCount.toNat + bytes.length ≤ Config.outCap) : ∃ t, emitThen bytes after s = .next t :=
  ⟨_, emitThen_of_fits h⟩

/-- The enabled step of a scan inside the image completes. -/
theorem exec_nextToken_completes {i : Instr} (hs : s.ScanInv) (hi : s.nextToken = some i) :
    ∃ t, exec i s = .next t := by
  rcases State.nextToken_cases hi with ⟨hp, rfl⟩ | ⟨hp, hr, hc, hsel⟩ | ⟨hp, hc, rfl⟩ | ⟨hp, rfl⟩ | ⟨hp, rfl⟩ |
    ⟨hp, rfl⟩
  · exact ⟨_, exec_hdr_header hp⟩
  · obtain ⟨hw, h1, hn⟩ := selectToken_legal s.px s.row.toNat hc
    rw [← hsel] at hw h1 hn
    have hlen := length_tokenBytes_le_four_pixelCount hw h1
    have hbound := hs.body hp
    simp only [Config.height, Config.width] at hr hn
    rw [exec_selectToken hp hr hc hsel]
    exact emitThen_next (by simp only [Config.outCap]; omega)
  · have hlen : (tokenBytes .eol).length = 2 := rfl
    have hbound := hs.body hp
    have hr := hs.row hp
    simp only [Config.height, Config.width] at hr hc
    rw [exec_eol hp hc]
    exact emitThen_next (by simp only [Config.outCap]; omega)
  · have hlen : (tokenBytes .eoi).length = 3 := rfl
    have hbound := hs.eoi hp
    simp only [Config.height] at hbound
    rw [exec_eoi hp]
    exact emitThen_next (by simp only [Config.outCap]; omega)
  · have hbound := hs.pad hp
    obtain ⟨h3, h4⟩ := padCount_aligns s.byteCount.toNat
    simp only [Config.height] at hbound
    rw [exec_pad hp]
    exact emitThen_next (by simp only [List.length_replicate, Config.outCap]; omega)
  · exact ⟨_, exec_hdr_patch hp⟩

/-- A scan inside the image has an enabled step in every phase of `ENCODE` (R40, R136). -/
theorem State.ScanInv.nextToken_isSome (hs : s.ScanInv) (hp : s.phase.isEncode = true) :
    ∃ i, s.nextToken = some i := by
  cases hphase : s.phase with
  | body =>
    rcases Nat.lt_or_eq_of_le (hs.col hphase) with hc | hc
    · exact ⟨_, State.nextToken_body hphase (hs.row hphase) hc⟩
    · exact ⟨.eol, by simp only [State.nextToken, hphase, hc, if_true]⟩
  | header | eoi | pad | patch => simp [State.nextToken, hphase]
  | idle | compose | fault => simp [hphase, Phase.isEncode] at hp

/-- A step on the block's turn runs the selected token. -/
theorem step_of_nextToken {i : Instr} (hb : s.blockTurn = true) (hi : s.nextToken = some i) :
    step s = exec i s.afterFetch := by
  have hi' : s.afterFetch.nextToken = some i := by rwa [State.afterFetch_nextToken]
  rw [step, State.fetch_blockTurn hb, State.blockAction_of_token hi']

/-- A step on the block's turn in `P_COMPOSE` is the compose step (R126). -/
theorem step_of_compose (hb : s.blockTurn = true) (hp : s.phase = .compose) : step s = composeStep s.afterFetch := by
  simp only [step, State.fetch_blockTurn hb, State.blockAction, State.nextToken, State.afterFetch_phase, hp]

/-- Without an enabled step the block's turn takes the turn only (R187, R221). -/
theorem step_of_rest (hb : s.blockTurn = true) (hp : s.phase = .idle ∨ s.phase = .fault) :
    step s = .next s.afterFetch := by
  rcases hp with hp | hp <;>
    simp only [step, State.fetch_blockTurn hb, State.blockAction, State.nextToken, State.afterFetch_phase, hp]

theorem composeStep_next (s : State) : ∃ t, composeStep s = .next t := by
  unfold composeStep
  split <;> exact ⟨_, rfl⟩

/-- From a scan inside the image the block's turn completes. -/
theorem step_block_completes (hs : s.ScanInv) (hb : s.blockTurn = true) : ∃ t, step s = .next t := by
  cases hp : s.phase with
  | idle => exact ⟨_, step_of_rest hb (.inl hp)⟩
  | fault => exact ⟨_, step_of_rest hb (.inr hp)⟩
  | compose =>
    rw [step_of_compose hb hp]
    exact composeStep_next _
  | header | body | eoi | pad | patch =>
    obtain ⟨i, hi⟩ := hs.nextToken_isSome (by rw [hp]; rfl)
    rw [step_of_nextToken hb hi]
    exact exec_nextToken_completes (.afterFetch s hs) (by rwa [State.afterFetch_nextToken])

end Sys2Proof.Machine
end

section
/-! SUPPORT. The bits of the `STATUS` word (R29), and the stores that the block's own steps leave alone (R21 to R24,
R38). -/

namespace Sys2Proof.Machine

variable {s t : State}

/-- The `STATUS` word as a number, bit by bit from the lowest (R29): nothing is cut off at 32 bits. -/
theorem Status.word_toNat (st : Status) :
    st.word.toNat = Nat.bit st.busy (Nat.bit st.fault (Nat.bit st.outValid (Nat.bit false st.faultCode.toNat))) := by
  have hc := st.faultCode.isLt
  have hb := Bool.toNat_le st.busy
  have hf := Bool.toNat_le st.fault
  have ho := Bool.toNat_le st.outValid
  simp only [Status.word, BitVec.toNat_ofNat, Nat.bit_val, Bool.toNat_false]
  omega

/-- The block's own steps write neither `PLANE` nor `NPLANES`. -/
theorem BlockEffect.keeps_inputs (h : BlockEffect s t) : t.plane = s.plane ∧ t.nplanes = s.nplanes := by
  cases h with
  | tooManyPlanes => exact ⟨s.takeFault_plane _, s.takeFault_nplanes _⟩
  | rest | compose | header | pixels | endOfRow | endOfImage | padding | patch => exact ⟨rfl, rfl⟩

/-- Only the compose step writes `FRAME`. -/
theorem BlockEffect.keeps_frame (h : BlockEffect s t) (hp : s.phase ≠ .compose) : t.frame = s.frame := by
  cases h with
  | compose _ hc | tooManyPlanes hc => exact absurd hc hp
  | rest | header | pixels | endOfRow | endOfImage | padding | patch => rfl

/-- Only the steps of `ENCODE` write `OUT`. -/
theorem BlockEffect.keeps_out (h : BlockEffect s t) (hp : s.phase.isEncode = false) : t.out = s.out := by
  cases h with
  | rest | compose => rfl
  | tooManyPlanes => rw [s.takeFault_out, if_neg (by simp [hp])]
  | header _ he | pixels _ _ he | endOfRow _ he | endOfImage _ he | padding _ he | patch he =>
    simp [he, Phase.isEncode] at hp

end Sys2Proof.Machine
end

section
/-! PROOFS. The statements about the state: its invariants, its registers and what a step may change. -/

namespace Sys2Proof.Machine

/-- Settles O55: by cases on the effect of the step. -/
theorem stepKeepsStatusInv : Obligations.StepKeepsStatusInv := fun _ _ hs h =>
  step_keeps State.StatusInv.afterFetch BlockEffect.keeps_statusInv HostEffect.keeps_statusInv hs h

/-- Settles O56: every byte the block emits fits `OUT`, every index the host writes is inside its store. -/
theorem stepKeepsStoresInv : Obligations.StepKeepsStoresInv := fun _ _ hs h =>
  step_keeps State.StoresInv.afterFetch BlockEffect.keeps_storesInv HostEffect.keeps_storesInv hs h

/-- Settles O57: a body token takes at most four bytes for each pixel and ends inside its row. -/
theorem stepKeepsScanInv : Obligations.StepKeepsScanInv := fun _ _ hs h =>
  step_keeps State.ScanInv.afterFetch BlockEffect.keeps_scanInv HostEffect.keeps_scanInv hs h

/-- Settles O58: only the patch step makes a stream valid, and there the scan invariant bounds its length. -/
theorem stepKeepsLengthInv : Obligations.StepKeepsLengthInv := by
  intro s t hscan hs h
  have hscan' := State.ScanInv.afterFetch s hscan
  have hs' := State.LengthInv.afterFetch s hs
  rcases step_effect h with h | h
  · exact h.keeps_lengthInv hscan' hs'
  · exact h.keeps_lengthInv hs'

/-- Settles O60: an offered transaction completes, and every enabled step of the block has room in `OUT`. -/
theorem machineNeverStops : Obligations.MachineNeverStops := by
  intro s hs hoffered
  cases hb : s.blockTurn with
  | false =>
    obtain ⟨m, rest, hm⟩ := State.turns_of_not_blockTurn hb
    rw [step_host hm]
    exact hostTransact_of_offered (hoffered m rest hm) _
  | true => exact step_block_completes hs hb

/-- Settles O45: the bits of the word are read off one after the other, `FAULT_CODE` last. -/
theorem statusWordLayout : Obligations.StatusWordLayout := by
  intro st i
  rw [← BitVec.testBit_toNat, Status.word_toNat]
  match i with
  | 0 => rw [Nat.testBit_bit_zero]; rfl
  | 1 => rw [Nat.testBit_bit_succ, Nat.testBit_bit_zero]; rfl
  | 2 => rw [Nat.testBit_bit_succ, Nat.testBit_bit_succ, Nat.testBit_bit_zero]; rfl
  | 3 => rw [Nat.testBit_bit_succ, Nat.testBit_bit_succ, Nat.testBit_bit_succ, Nat.testBit_bit_zero]; rfl
  | j + 4 =>
    rw [Nat.testBit_bit_succ, Nat.testBit_bit_succ, Nat.testBit_bit_succ, Nat.testBit_bit_succ, BitVec.testBit_toNat]
    by_cases hj : j < 4
    · simp [show j + 4 ≤ 7 by omega]
    · rw [BitVec.getLsbD_of_ge _ _ (by omega)]
      simp [show ¬j + 4 ≤ 7 by omega]

/-- Settles O48: by cases on the transaction. -/
theorem exactlyOfferedTransactionsComplete : Obligations.ExactlyOfferedTransactionsComplete := by
  intro s m rest hm
  rw [step_host hm]
  exact ⟨fun h => hostTransact_of_offered h _, fun h => hostTransact_of_not_offered h _⟩

/-- Settles O54: by cases on the block's effect. -/
theorem blockWritesOnlyItsTargets : Obligations.BlockWritesOnlyItsTargets := by
  intro s t hb h
  have heffect := BlockEffect.of_step hb h
  obtain ⟨hplane, hnplanes⟩ := heffect.keeps_inputs
  have hframe := heffect.keeps_frame
  have hout := heffect.keeps_out
  rw [State.afterFetch_plane] at hplane
  rw [State.afterFetch_nplanes] at hnplanes
  rw [State.afterFetch_phase, State.afterFetch_frame] at hframe
  rw [State.afterFetch_phase, State.afterFetch_out] at hout
  exact ⟨hplane, hnplanes, hframe, hout⟩

/-- Settles O26. -/
theorem otherTokensAreRefused : Obligations.OtherTokensAreRefused := fun _ _ _ he h => exec_of_not_selected he h

/-- Settles O41: an idle block accepts the write of `NPLANES`; no gate stands before `STATUS` and `LENGTH`. -/
theorem hostWritesRegisters : Obligations.HostWritesRegisters := by
  intro s v rest
  refine ⟨fun hm hp hb => ?_, fun hm => ?_⟩
  · rw [step_host hm]
    exact hostWrite_when_free (effect := fun t => { t with nplanes := v }) (by simp [hp]) hb
  · rcases hm with hm | hm
    · exact step_host hm
    · exact step_host hm

/-- Settles O44: by cases on the register number. -/
theorem hostReadsRegisters : Obligations.HostReadsRegisters := by
  intro s number rest hm hn
  rw [step_host hm]
  match number, hn with
  | 0, _ | 1, _ | 2, _ | 3, _ => rfl

/-- Settles O50: the fields of `State.reset`. -/
theorem resetValues : Obligations.ResetValues := ⟨rfl, rfl, rfl, rfl, rfl, rfl, rfl, rfl⟩

/-- Settles O52: the fetch on the block's turn is the selected token. -/
theorem stepRunsTheSelectedToken : Obligations.StepRunsTheSelectedToken := by
  intro s i hb hi
  rw [← State.afterFetch_of_blockTurn hb]
  exact step_of_nextToken hb hi

/-- Settles O53: no token is selected in `P_IDLE` or `P_FAULT`. -/
theorem idleBlockRests : Obligations.IdleBlockRests := by
  intro s hb hp
  rw [← State.afterFetch_of_blockTurn hb]
  exact step_of_rest hb hp

/-- Settles O59: the stores are empty and no operation runs. -/
theorem resetMeetsInvariants : Obligations.ResetMeetsInvariants where
  status := ⟨rfl, rfl, by decide, by decide⟩
  stores := ⟨rfl, rfl, rfl, rfl, rfl, rfl⟩
  scan := .of_not_scanning (.inl rfl)
  len := .of_invalid rfl rfl

end Sys2Proof.Machine
end

section
/-! SUPPORT. Host transactions by their kind: every offered read answers a value, every offered write of `CMD`,
`NPLANES`, `PLANE` or `FRAME` passes the one gate of ownership (R61, R65, R186), and what the fault entry leaves
(R187, R205). -/

namespace Sys2Proof.Machine

/-- The fault entry changes `PHASE`, `STATUS`, `LENGTH` and at most one store, which takes a fresh filling (R187,
R205). -/
theorem State.takeFault_eq (s : State) (f : FaultCause) :
    s.takeFault f = { s with
      phase := .fault, length := 0,
      status := { busy := false, fault := true, outValid := false, faultCode := f.code },
      frame := (s.takeFault f).frame, out := (s.takeFault f).out, fresh := (s.takeFault f).fresh } := by
  unfold State.takeFault State.spoilTarget
  split
  · rfl
  · split <;> rfl

/-- A host read of a byte answers some value, busy or not. -/
theorem hostReadByte_answers (byte : Byte) (s : State) :
    ∃ v draw, hostReadByte byte s = .next { s with hostResult := some v, fresh := draw } := by
  obtain ⟨t, ht⟩ := hostReadByte_next byte s
  rcases hostReadByte_cases ht with ⟨_, rfl⟩ | ⟨_, rfl⟩
  · exact ⟨_, _, ht⟩
  · exact ⟨_, s.fresh, ht⟩

/-- A host read of one of the four registers answers its value. -/
theorem hostReadReg_answers {number : Nat} (h : number < 4) (s : State) :
    ∃ v, hostReadReg number s = .next { s with hostResult := some v } := by
  match number, h with
  | 0, _ | 1, _ | 2, _ | 3, _ => exact ⟨_, rfl⟩

/-- An offered read only answers (R61). -/
theorem hostTransact_of_read {m : HostMove} (hread : m.isRead = true) (h : m.isOffered = true) (s : State) :
    ∃ v draw, hostTransact m s = .next { s with hostResult := some v, fresh := draw } := by
  cases m with
  | readFrame r c k =>
    have hin : frameInside r c k = true := h
    simp only [hostTransact, hin, if_true, hostReadByte_answers]
  | readOut a =>
    have hin : a < Config.outCap := of_decide_eq_true h
    simp only [hostTransact, hin, if_true, hostReadByte_answers]
  | readReg number =>
    obtain ⟨v, hv⟩ := hostReadReg_answers (of_decide_eq_true h) s
    exact ⟨v, s.fresh, hv⟩
  | readPlane => cases h
  | writePlane | writeFrame | writeOut | writeReg | assertReset => cases hread

/-- An offered write of `CMD`, `NPLANES`, `PLANE` or `FRAME` is its effect behind the gate of ownership (R65, R180). -/
theorem hostTransact_of_ownedWrite {m : HostMove} (howned : m.isOwnedWrite = true) (h : m.isOffered = true) :
    ∃ effect, ∀ s, hostTransact m s = hostWrite effect s := by
  cases m with
  | writePlane p r c bit => exact ⟨_, fun _ => if_pos h⟩
  | writeFrame r c k byte => exact ⟨_, fun _ => if_pos h⟩
  | writeReg number v =>
    match number, howned with
    | 0, _ | 1, _ => exact ⟨_, fun _ => rfl⟩
  | readPlane | readFrame | writeOut | readOut | readReg | assertReset => cases howned

end Sys2Proof.Machine
end

section
/-! PROOFS. The statements about host access to the block while it is busy and about host reads. -/

namespace Sys2Proof.Machine

/-- Settles O42: the gate of ownership stands before every such write, and the fault entry spoils the target of the
running operation only. -/
theorem hostWriteWhileBusyFaults : Obligations.HostWriteWhileBusyFaults := by
  intro s m rest hm howned hoffered hphase hbusy
  have hlive : s.phase ≠ .fault := fun hp => by simp [hp, Phase.isBusy] at hphase
  obtain ⟨effect, heffect⟩ := hostTransact_of_ownedWrite howned hoffered
  refine ⟨_, ?_, State.takeFault_eq { s with turns := rest, hostResult := none } .busyViolation, ?_, ?_⟩
  · rw [step_host hm, heffect]
    exact hostWrite_when_busy hlive hbusy
  · intro hencode
    have hcompose : s.phase ≠ .compose := fun hp => by simp [hp, Phase.isEncode] at hencode
    rw [State.takeFault_frame, if_neg fun hc => hcompose hc.left]
  · intro hcompose
    rw [State.takeFault_out, if_neg (by simp [hcompose, Phase.isEncode])]

/-- Settles O47: an offered read only answers. -/
theorem readsHaveNoSideEffects : Obligations.ReadsHaveNoSideEffects := by
  intro s m rest hm hread hoffered
  obtain ⟨v, draw, hanswer⟩ := hostTransact_of_read hread hoffered { s with turns := rest, hostResult := none }
  exact ⟨_, v, (step_host hm).trans hanswer, rfl⟩

end Sys2Proof.Machine
end

section
/-! SUPPORT. The readers of operands: each accepts exactly the bytes of an operand and answers it with the bytes that
follow (R84 to R87, R93). -/

namespace Sys2Proof

variable {bytes rest : List Byte}

/-- Seven low bits and the bits above them are a number in base 128 (R87). -/
theorem and_0x7F_or_shiftLeft (a b : Nat) : (a &&& 0x7F) ||| (b <<< 7) = 128 * b + a % 128 := by
  have hlow : a &&& 0x7F = a % 128 := Nat.and_two_pow_sub_one_eq_mod a 7
  have hhigh : b <<< 7 = 2 ^ 7 * b := by rw [Nat.shiftLeft_eq, Nat.mul_comm]
  rw [hlow, hhigh, Nat.or_comm, ← Nat.two_pow_add_eq_or_of_lt (by omega) b]

theorem countBytes_of_lt {n : Nat} (h : n < 128) : countBytes n = [BitVec.ofNat 8 n] := if_pos h

theorem countBytes_of_ge {n : Nat} (h : 128 ≤ n) :
    countBytes n = [BitVec.ofNat 8 (128 + n % 128), BitVec.ofNat 8 (n / 128)] := by
  have hlow : (n &&& 0x7F) ||| 0x80 = 128 + n % 128 := and_0x7F_or_shiftLeft n 1
  rw [countBytes, if_neg (by omega), hlow, Nat.shiftRight_eq_div_pow]

theorem readCount_short {x : Byte} (hx : x.toNat < 128) : readCount (x :: rest) = .ok (x.toNat, rest) := if_pos hx

theorem readCount_long {x m : Byte} (hx : 128 ≤ x.toNat) (hm : m.toNat ≠ 0) :
    readCount (x :: m :: rest) = .ok (128 * m.toNat + x.toNat % 128, rest) := by
  rw [readCount, if_neg (by omega), ← and_0x7F_or_shiftLeft]
  exact if_neg hm

/-- The count operand: every number of 15 bits is read from its canonical form and from no other (R86, R87, R93). -/
theorem readCount_eq_ok_iff {n : Nat} :
    readCount bytes = .ok (n, rest) ↔ n < 32768 ∧ bytes = countBytes n ++ rest := by
  constructor
  · intro h
    match bytes with
    | [] => cases h
    | [x] =>
      by_cases hx : x.toNat < 128
      · rw [readCount_short hx] at h
        cases h
        exact ⟨by omega, by rw [countBytes_of_lt hx]; simp⟩
      · simp [readCount, hx] at h
    | x :: m :: tail =>
      by_cases hx : x.toNat < 128
      · rw [readCount_short hx] at h
        cases h
        exact ⟨by omega, by rw [countBytes_of_lt hx]; simp⟩
      · by_cases hm : m.toNat = 0
        · simp [readCount, hx, hm] at h
        · rw [readCount_long (by omega) hm] at h
          cases h
          have hlow : BitVec.ofNat 8 (128 + (128 * m.toNat + x.toNat % 128) % 128) = x := by bv_omega
          have hhigh : BitVec.ofNat 8 ((128 * m.toNat + x.toNat % 128) / 128) = m := by bv_omega
          exact ⟨by omega, by rw [countBytes_of_ge (by omega), hlow, hhigh]; rfl⟩
  · rintro ⟨hn, rfl⟩
    by_cases h : n < 128
    · have hx : (BitVec.ofNat 8 n).toNat = n := by rw [BitVec.toNat_ofNat]; omega
      rw [countBytes_of_lt h, List.singleton_append, readCount_short (by omega), hx]
    · have hx : (BitVec.ofNat 8 (128 + n % 128)).toNat = 128 + n % 128 := by rw [BitVec.toNat_ofNat]; omega
      have hm : (BitVec.ofNat 8 (n / 128)).toNat = n / 128 := by rw [BitVec.toNat_ofNat]; omega
      rw [countBytes_of_ge (by omega), List.cons_append, List.singleton_append, readCount_long (by omega) (by omega),
        hx, hm, show 128 * (n / 128) + (128 + n % 128) % 128 = n by omega]

/-- Every count up to a row's width is read back (R86, R87). -/
theorem readCount_countBytes {n : Nat} (hn : n ≤ Config.width) : readCount (countBytes n ++ rest) = .ok (n, rest) :=
  readCount_eq_ok_iff.mpr ⟨Nat.lt_of_le_of_lt hn (by simp), rfl⟩

/-- A count operand is never empty, and its first byte is `00` for the count 0 only, `01` for the count 1 only
(R83, R86). -/
theorem countBytes_eq_cons (n : Nat) :
    ∃ x tail, countBytes n = x :: tail ∧ (x = 0x00 ↔ n = 0) ∧ (x = 0x01 ↔ n = 1) := by
  by_cases h : n < 128
  · exact ⟨_, _, countBytes_of_lt h, by bv_omega, by bv_omega⟩
  · exact ⟨_, _, countBytes_of_ge (by omega), by bv_omega, by bv_omega⟩

theorem head_of_countBytes {x : Byte} {tail : List Byte} {n : Nat} (h : x :: tail = countBytes n ++ rest) :
    (x = 0x00 ↔ n = 0) ∧ (x = 0x01 ↔ n = 1) := by
  obtain ⟨y, ys, hcons, hhead⟩ := countBytes_eq_cons n
  rw [hcons, List.cons_append] at h
  rwa [(List.cons.inj h).left]

theorem readPixel_eq_ok_iff {p : Pixel} : readPixel bytes = .ok (p, rest) ↔ bytes = pixelBytes p ++ rest := by
  constructor
  · intro h
    match bytes with
    | [] | [_] | [_, _] => cases h
    | a :: b :: c :: tail =>
      cases h
      rfl
  · rintro rfl
    rfl

theorem readPixels_eq_ok_iff {n : Nat} {ps : List Pixel} :
    readPixels n bytes = .ok (ps, rest) ↔ ps.length = n ∧ bytes = ps.flatMap pixelBytes ++ rest := by
  induction n generalizing bytes ps with
  | zero =>
    rw [readPixels, List.length_eq_zero_iff]
    constructor
    · rintro ⟨⟩
      exact ⟨rfl, rfl⟩
    · rintro ⟨rfl, rfl⟩
      rfl
  | succ n ih =>
    constructor
    · intro h
      unfold readPixels at h
      split at h
      · cases h
      · rename_i p tail hp
        split at h
        · cases h
        · rename_i qs tail' hqs
          cases h
          obtain ⟨hlen, rfl⟩ := ih.mp hqs
          exact ⟨by rw [List.length_cons, hlen],
            by rw [readPixel_eq_ok_iff.mp hp, List.flatMap_cons, List.append_assoc]⟩
    · rintro ⟨hlen, rfl⟩
      match ps, hlen with
      | p :: qs, hlen =>
        rw [List.flatMap_cons, List.append_assoc, readPixels, readPixel_eq_ok_iff.mpr rfl]
        simp only [ih.mpr ⟨Nat.succ.inj hlen, rfl⟩]

end Sys2Proof
end

section
/-! SUPPORT. The tokens that stand in each part of the stream (R81, R82), and the readers of tokens: each accepts
exactly the bytes of the tokens of its part (R80, R83, R92, R93). -/

namespace Sys2Proof

open Sys2Proof.Machine

variable {bytes rest : List Byte} {i : Instr}

/-! ## Tokens by their count -/

theorem tokenBytes_vrepToken (n : Nat) : tokenBytes (vrepToken n) = 0x00 :: 0x01 :: countBytes n := by
  unfold vrepToken
  split <;> rfl

/-- `PIX` is the repeat of count 1 (R89). -/
theorem tokenBytes_hrepToken (n : Nat) (p : Pixel) : tokenBytes (hrepToken n p) = countBytes n ++ pixelBytes p := by
  unfold hrepToken
  split
  · subst n
    rfl
  · split <;> rfl

theorem tokenBytes_litsToken (ps : List Pixel) :
    tokenBytes (litsToken ps) = 0x00 :: (countBytes ps.length ++ ps.flatMap pixelBytes) := by
  unfold litsToken
  split <;> rfl

/-- The tokens of the body with the counts of R82: each kind by its count, short and long form in one. -/
inductive BodyToken : Instr → Prop
  | vrep (n : Nat) (h1 : 1 ≤ n) (hn : n ≤ Config.width) : BodyToken (vrepToken n)
  | hrep (n : Nat) (p : Pixel) (h1 : 1 ≤ n) (hn : n ≤ Config.width) : BodyToken (hrepToken n p)
  | lits (ps : List Pixel) (h2 : 2 ≤ ps.length) (hn : ps.length ≤ Config.width) : BodyToken (litsToken ps)
  | eol : BodyToken .eol
  | eoi : BodyToken .eoi

theorem BodyToken.wellFormed (h : BodyToken i) : i.WellFormed := by
  cases h with
  | vrep n h1 hn => exact vrepToken_wellFormed h1 hn
  | hrep n p h1 hn => exact hrepToken_wellFormed p h1 hn
  | lits ps h2 hn => exact litsToken_wellFormed h2 hn
  | eol | eoi => rfl

theorem BodyToken.encode_eq (h : BodyToken i) : encode i = .stream .body (tokenBytes i) := by
  cases h with
  | vrep n =>
    unfold vrepToken
    split <;> rfl
  | hrep n p =>
    unfold hrepToken
    split
    · rfl
    · split <;> rfl
  | lits ps =>
    unfold litsToken
    split <;> rfl
  | eol | eoi => rfl

/-- Every well-formed token that is encoded in the body is one of them. -/
theorem BodyToken.of_encode (hw : i.WellFormed) (he : encode i = .stream .body bytes) : BodyToken i := by
  cases i with
  | vrepS n =>
    obtain ⟨h1, hn⟩ := of_decide_eq_true hw
    have hi : Instr.vrepS n = vrepToken n := (if_pos hn).symm
    exact hi ▸ .vrep n h1 (hn.trans (by simp))
  | vrepL n =>
    obtain ⟨h1, hn⟩ := of_decide_eq_true hw
    have hi : Instr.vrepL n = vrepToken n := (if_neg h1.not_ge).symm
    exact hi ▸ .vrep n (by omega) hn
  | pix p => exact .hrep 1 p (Nat.le_refl 1) (by simp)
  | hrepS n p =>
    obtain ⟨h2, hn⟩ := of_decide_eq_true hw
    have hi : Instr.hrepS n p = hrepToken n p := by rw [hrepToken, if_neg (by omega), if_pos hn]
    exact hi ▸ .hrep n p (by omega) (hn.trans (by simp))
  | hrepL n p =>
    obtain ⟨h1, hn⟩ := of_decide_eq_true hw
    simp only [Config.shortCountMax] at h1
    have hi : Instr.hrepL n p = hrepToken n p := by rw [hrepToken, if_neg (by omega), if_neg h1.not_ge]
    exact hi ▸ .hrep n p (by omega) hn
  | litsS ps =>
    obtain ⟨h2, hn⟩ := of_decide_eq_true hw
    have hi : Instr.litsS ps = litsToken ps := (if_pos hn).symm
    exact hi ▸ .lits ps h2 (hn.trans (by simp))
  | litsL ps =>
    obtain ⟨h1, hn⟩ := of_decide_eq_true hw
    simp only [Config.shortCountMax] at h1
    have hi : Instr.litsL ps = litsToken ps := (if_neg h1.not_ge).symm
    exact hi ▸ .lits ps (by omega) hn
  | eol => exact .eol
  | eoi => exact .eoi
  | hdr | pad | nop | compose | encode | reserved => cases he

/-! ## The body -/

theorem decodeRepeat_eq_ok_iff :
    decodeRepeat bytes = .ok (i, rest) ↔
      ∃ n p, n ≤ Config.width ∧ i = hrepToken n p ∧ bytes = countBytes n ++ (pixelBytes p ++ rest) := by
  constructor
  · intro h
    unfold decodeRepeat at h
    split at h
    · cases h
    · rename_i n tail hcount
      split at h
      · cases h
      · split at h
        · cases h
        · rename_i p tail' hpixel
          cases h
          exact ⟨n, p, by omega, rfl,
            by rw [(readCount_eq_ok_iff.mp hcount).right, readPixel_eq_ok_iff.mp hpixel]⟩
  · rintro ⟨n, p, hn, rfl, rfl⟩
    rw [decodeRepeat, readCount_countBytes hn]
    simp only [if_neg hn.not_gt, readPixel_eq_ok_iff.mpr rfl]

theorem decodeLiterals_eq_ok_iff :
    decodeLiterals bytes = .ok (i, rest) ↔
      ∃ ps, ps.length ≤ Config.width ∧ i = litsToken ps ∧
        bytes = countBytes ps.length ++ (ps.flatMap pixelBytes ++ rest) := by
  constructor
  · intro h
    unfold decodeLiterals at h
    split at h
    · cases h
    · rename_i n tail hcount
      split at h
      · cases h
      · split at h
        · cases h
        · rename_i ps tail' hpixels
          cases h
          obtain ⟨rfl, rfl⟩ := readPixels_eq_ok_iff.mp hpixels
          exact ⟨ps, by omega, rfl, (readCount_eq_ok_iff.mp hcount).right⟩
  · rintro ⟨ps, hn, rfl, rfl⟩
    rw [decodeLiterals, readCount_countBytes hn]
    simp only [if_neg hn.not_gt, readPixels_eq_ok_iff.mpr ⟨rfl, rfl⟩]

/-- After `00 01` a leading `00` ends `EOI`: no vertical repeat has the count 0 (R83, R91). -/
theorem decodeVertical_eq_ok_iff :
    decodeVertical bytes = .ok (i, rest) ↔
      (i = .eoi ∧ bytes = 0x00 :: rest) ∨
      ∃ n, 1 ≤ n ∧ n ≤ Config.width ∧ i = vrepToken n ∧ bytes = countBytes n ++ rest := by
  constructor
  · intro h
    unfold decodeVertical at h
    split at h
    · cases h
    · rename_i y tail
      split at h
      · cases h
        exact .inl ⟨rfl, by simp [*]⟩
      · rename_i hy
        split at h
        · cases h
        · rename_i n tail' hcount
          split at h
          · cases h
          · cases h
            have hbytes := (readCount_eq_ok_iff.mp hcount).right
            have h0 : n ≠ 0 := (head_of_countBytes hbytes).left.not.mp hy
            exact .inr ⟨n, by omega, by omega, rfl, hbytes⟩
  · rintro (⟨rfl, rfl⟩ | ⟨n, h1, hn, rfl, rfl⟩)
    · rfl
    · have hcount : readCount (countBytes n ++ rest) = .ok (n, rest) := readCount_countBytes hn
      obtain ⟨x, xs, hcons, hzero, _⟩ := countBytes_eq_cons n
      rw [hcons, List.cons_append] at hcount ⊢
      rw [decodeVertical, if_neg (by rw [hzero]; omega), hcount]
      exact if_neg hn.not_gt

/-- After the escape a leading `00` is `EOL` and `01` begins a vertical repeat or `EOI`: no literal run has the count
0 or 1 (R83, R90, R93). -/
theorem decodeEscape_eq_ok_iff :
    decodeEscape bytes = .ok (i, rest) ↔
      (i = .eol ∧ bytes = 0x00 :: rest) ∨
      (∃ tail, bytes = 0x01 :: tail ∧ decodeVertical tail = .ok (i, rest)) ∨
      ∃ ps, 2 ≤ ps.length ∧ ps.length ≤ Config.width ∧ i = litsToken ps ∧
        bytes = countBytes ps.length ++ (ps.flatMap pixelBytes ++ rest) := by
  constructor
  · intro h
    unfold decodeEscape at h
    split at h
    · cases h
    · rename_i y tail
      split at h
      · cases h
        exact .inl ⟨rfl, by simp [*]⟩
      · rename_i hy0
        split at h
        · rename_i hy1
          exact .inr (.inl ⟨tail, by rw [hy1], h⟩)
        · rename_i hy1
          obtain ⟨ps, hn, rfl, hbytes⟩ := decodeLiterals_eq_ok_iff.mp h
          obtain ⟨hzero, hone⟩ := head_of_countBytes hbytes
          have h0 : ps.length ≠ 0 := hzero.not.mp hy0
          have h1 : ps.length ≠ 1 := hone.not.mp hy1
          exact .inr (.inr ⟨ps, by omega, hn, rfl, hbytes⟩)
  · rintro (⟨rfl, rfl⟩ | ⟨tail, rfl, h⟩ | ⟨ps, h2, hn, rfl, rfl⟩)
    · rfl
    · exact h
    · have hlits := decodeLiterals_eq_ok_iff.mpr ⟨ps, hn, rfl, (rfl : _ = _ ++ (_ ++ rest))⟩
      obtain ⟨x, xs, hcons, hzero, hone⟩ := countBytes_eq_cons ps.length
      rw [hcons, List.cons_append] at hlits ⊢
      rw [decodeEscape, if_neg (by rw [hzero]; omega), if_neg (by rw [hone]; omega), hlits]

/-- The body: no repeat has the count 0, and every body token is told from the others by its leading bytes (R83). -/
theorem decodeBody_eq_ok_iff : decodeBody bytes = .ok (i, rest) ↔ BodyToken i ∧ bytes = tokenBytes i ++ rest := by
  constructor
  · intro h
    unfold decodeBody at h
    split at h
    · cases h
    · rename_i b tail
      split at h
      · rename_i hb
        subst hb
        rcases decodeEscape_eq_ok_iff.mp h with ⟨rfl, rfl⟩ | ⟨tail, rfl, hv⟩ | ⟨ps, h2, hn, rfl, rfl⟩
        · exact ⟨.eol, rfl⟩
        · rcases decodeVertical_eq_ok_iff.mp hv with ⟨rfl, rfl⟩ | ⟨n, h1, hn, rfl, rfl⟩
          · exact ⟨.eoi, rfl⟩
          · exact ⟨.vrep n h1 hn, by rw [tokenBytes_vrepToken]; rfl⟩
        · exact ⟨.lits ps h2 hn, by rw [tokenBytes_litsToken, List.cons_append, List.append_assoc]⟩
      · rename_i hb
        obtain ⟨n, p, hn, rfl, hbytes⟩ := decodeRepeat_eq_ok_iff.mp h
        have h0 : n ≠ 0 := (head_of_countBytes hbytes).left.not.mp hb
        exact ⟨.hrep n p (by omega) hn, by rw [hbytes, tokenBytes_hrepToken, List.append_assoc]⟩
  · rintro ⟨h, rfl⟩
    cases h with
    | vrep n h1 hn =>
      rw [tokenBytes_vrepToken]
      exact decodeVertical_eq_ok_iff.mpr (.inr ⟨n, h1, hn, rfl, rfl⟩)
    | hrep n p h1 hn =>
      have hrep := decodeRepeat_eq_ok_iff.mpr ⟨n, p, hn, rfl, (rfl : _ = _ ++ (_ ++ rest))⟩
      obtain ⟨x, xs, hcons, hzero, _⟩ := countBytes_eq_cons n
      rw [tokenBytes_hrepToken, List.append_assoc]
      rw [hcons, List.cons_append] at hrep ⊢
      rw [decodeBody, if_neg (by rw [hzero]; omega), hrep]
    | lits ps h2 hn =>
      rw [tokenBytes_litsToken, List.cons_append, List.append_assoc]
      exact decodeEscape_eq_ok_iff.mpr (.inr (.inr ⟨ps, h2, hn, rfl, rfl⟩))
    | eol | eoi => rfl

/-! ## The header and the tail -/

/-- The header's bytes, field by field (R80). -/
theorem tokenBytes_hdr (len : Reg) :
    tokenBytes (.hdr len) = Config.signature ++ ([0x80, 0x07, 0x38, 0x04] ++ (regBytes len ++ headerConstants)) := by
  have hw : le16 Config.width = .ok [0x80, 0x07] := by decide
  have hh : le16 Config.height = .ok [0x38, 0x04] := by decide
  simp only [tokenBytes, headerBytes, hw, hh, le32_toNat, List.append_assoc]
  rfl

/-- Four bytes are the little-endian bytes of the number they stand for (R57). -/
theorem regBytes_numberOfBytes {field : List Byte} (h : field.length = 4) :
    regBytes (BitVec.ofNat 32 (numberOfBytes field)) = field := by
  match field, h with
  | [a, b, c, d], _ =>
    simp only [regBytes, numberOfBytes, BitVec.toNat_ofNat, Nat.shiftRight_eq_div_pow, List.cons.injEq, and_true]
    refine ⟨?_, ?_, ?_, ?_⟩ <;> bv_omega

theorem numberOfBytes_regBytes (v : Reg) : numberOfBytes (regBytes v) = v.toNat := by
  have hv := v.isLt
  simp only [regBytes, numberOfBytes, BitVec.toNat_ofNat, Nat.shiftRight_eq_div_pow]
  omega

/-- A byte string of at least 48 bytes, cut at the fields of the header (R80). -/
theorem headerFields_append (bytes : List Byte) :
    bytes = bytes.take 4 ++ ((bytes.drop 4).take 4 ++ ((bytes.drop 8).take 4 ++
      ((bytes.drop 12).take 36 ++ bytes.drop 48))) := by
  have cut (a b : Nat) : bytes.drop a = (bytes.drop a).take b ++ bytes.drop (a + b) := by
    rw [← List.drop_drop, List.take_append_drop]
  rw [← cut 12, ← cut 8, ← cut 4, List.take_append_drop]

theorem decodeHeader_eq_ok_iff :
    decodeHeader bytes = .ok (i, rest) ↔
      ∃ len : Reg, len.toNat % Config.alignment = 0 ∧ i = .hdr len ∧ bytes = tokenBytes (.hdr len) ++ rest := by
  constructor
  · intro h
    unfold decodeHeader at h
    split_ifs at h with hlen hsig hsize hconst halign
    cases h
    have hfield : regBytes (BitVec.ofNat 32 (numberOfBytes ((bytes.drop 8).take 4))) = (bytes.drop 8).take 4 :=
      regBytes_numberOfBytes (by simp at hlen ⊢; omega)
    refine ⟨_, ?_, rfl, ?_⟩
    · rw [← numberOfBytes_regBytes, hfield]
      simpa using halign
    · simp only [not_not] at hsig hsize hconst
      rw [tokenBytes_hdr, hfield, ← hsig, ← hsize, ← hconst]
      simpa using headerFields_append bytes
  · rintro ⟨len, halign, rfl, rfl⟩
    have hlen : ¬(tokenBytes (.hdr len) ++ rest).length < Config.headerLength := by
      simp [Laws.length_header]
    have hfield : ((tokenBytes (.hdr len) ++ rest).drop 8).take 4 = regBytes len := by
      rw [tokenBytes_hdr]
      rfl
    rw [decodeHeader, if_neg hlen, hfield, numberOfBytes_regBytes, BitVec.ofNat_toNat, BitVec.setWidth_eq,
      if_neg (not_not.mpr halign), tokenBytes_hdr]
    rfl

theorem decodeTail_eq_ok_iff : decodeTail bytes = .ok (i, rest) ↔ i = .pad ∧ bytes = 0x00 :: rest := by
  constructor
  · intro h
    unfold decodeTail at h
    split at h
    · cases h
    · split at h
      · cases h
        exact ⟨rfl, by simp [*]⟩
      · cases h
  · rintro ⟨rfl, rfl⟩
    rfl

/-- The decoder of the stream accepts exactly the encodings of the well-formed tokens of its part (R80 to R94). -/
theorem decodeStream_eq_ok_iff {part : StreamPart} :
    decodeStream part bytes = .ok (i, rest) ↔
      i.WellFormed ∧ encode i = .stream part (tokenBytes i) ∧ bytes = tokenBytes i ++ rest := by
  cases part with
  | header =>
    refine decodeHeader_eq_ok_iff.trans ⟨?_, ?_⟩
    · rintro ⟨len, halign, rfl, hbytes⟩
      exact ⟨decide_eq_true halign, rfl, hbytes⟩
    · rintro ⟨hw, he, hbytes⟩
      cases i with
      | hdr len => exact ⟨len, of_decide_eq_true hw, rfl, hbytes⟩
      | _ => cases he
  | body =>
    refine decodeBody_eq_ok_iff.trans ⟨?_, ?_⟩
    · rintro ⟨h, hbytes⟩
      exact ⟨h.wellFormed, h.encode_eq, hbytes⟩
    · rintro ⟨hw, he, hbytes⟩
      exact ⟨.of_encode hw he, hbytes⟩
  | tail =>
    refine decodeTail_eq_ok_iff.trans ⟨?_, ?_⟩
    · rintro ⟨rfl, hbytes⟩
      exact ⟨rfl, rfl, hbytes⟩
    · rintro ⟨hw, he, hbytes⟩
      cases i with
      | pad => exact ⟨rfl, hbytes⟩
      | _ => cases he

/-- An encoding in the stream is the token's bytes. -/
theorem bytes_of_encode {part : StreamPart} (h : encode i = .stream part bytes) : bytes = tokenBytes i := by
  cases i with
  | nop | compose | encode | reserved => cases h
  | _ =>
    cases h
    rfl

/-- The encoding of a well-formed command is its value (R97, R98). -/
theorem decodeCommand_of_encode {v : Reg} (hw : i.WellFormed) (he : encode i = .command v) : decodeCommand v = i := by
  cases i with
  | nop | compose | encode =>
    cases he
    rfl
  | reserved w =>
    cases he
    have h3 : 3 ≤ v.toNat := of_decide_eq_true hw
    rw [decodeCommand, if_neg (by bv_omega), if_neg (by bv_omega), if_neg (by bv_omega)]
  | _ => cases he

end Sys2Proof
end

section
/-! SUPPORT. Which of the enabled step's tokens are vertical repeats, and that each is legal where it is emitted (R93,
R133, R149, R150). -/

namespace Sys2Proof.Machine

variable {s : State} {i : Instr}

/-- The two forms of the vertical repeat (R82). -/
def IsVerticalRepeat (i : Instr) : Prop := ∃ n, i = .vrepS n ∨ i = .vrepL n

theorem not_isVerticalRepeat_hrepToken (n : Nat) (p : Pixel) : ¬IsVerticalRepeat (hrepToken n p) := by
  rintro ⟨m, h⟩
  unfold hrepToken at h
  split at h
  · simp at h
  · split at h <;> simp at h

theorem not_isVerticalRepeat_litsToken (ps : List Pixel) : ¬IsVerticalRepeat (litsToken ps) := by
  rintro ⟨m, h⟩
  unfold litsToken at h
  split at h <;> simp at h

/-- Only the first primitive emits a vertical repeat, and it is not tried on row 0 (R133, R136). -/
theorem row_pos_of_selectToken {F : Image} {r c : Nat} (hc : c < Config.width)
    (h : IsVerticalRepeat (selectToken F r c)) : 0 < r := by
  rcases selectToken_cases F r hc with ⟨hv, _⟩ | ⟨_, _, _, _, he⟩ | ⟨_, _, he⟩ | ⟨_, _, _, _, he⟩
  · exact (vertical_iff.mp hv).left
  · exact absurd (he ▸ h) (not_isVerticalRepeat_hrepToken _ _)
  · rw [he] at h
    simp [IsVerticalRepeat] at h
  · exact absurd (he ▸ h) (not_isVerticalRepeat_litsToken _)

/-- A well-formed vertical repeat covers at least one pixel (R82). -/
theorem pixelCount_pos_of_isVerticalRepeat (hw : i.WellFormed) (h : IsVerticalRepeat i) : 0 < pixelCount i := by
  obtain ⟨n, rfl | rfl⟩ := h
  · exact (of_decide_eq_true hw).left
  · exact Nat.zero_lt_of_lt (of_decide_eq_true hw).left

/-- A well-formed token without pixels is legal wherever the scan stands inside the image. -/
theorem legal_of_pixelCount_eq_zero (hs : s.ScanInv) (hw : i.WellFormed) (hn : pixelCount i = 0) :
    i.WellFormed ∧ (IsVerticalRepeat i → 0 < s.row.toNat) ∧
      (s.phase = .body → s.col.toNat + pixelCount i ≤ Config.width) := by
  refine ⟨hw, fun h => ?_, fun hp => ?_⟩
  · exact absurd hn (pixelCount_pos_of_isVerticalRepeat hw h).ne'
  · rw [hn]
    exact hs.col hp

end Sys2Proof.Machine
end

section
/-! PROOFS. The statements about the encodings. -/

namespace Sys2Proof

open Sys2Proof.Machine

/-- Settles O1: a token is in the domain of the stream's decoder, a command is its value. -/
theorem decodeInvertsEncode : Obligations.DecodeInvertsEncode := by
  intro i hw
  have stream (part : StreamPart) (bytes rest : List Byte) (he : encode i = .stream part bytes) :
      decode (.stream part (bytes ++ rest)) = .ok (i, rest) := by
    cases bytes_of_encode he
    exact decodeStream_eq_ok_iff.mpr ⟨hw, he, rfl⟩
  refine ⟨?_, stream⟩
  cases he : encode i with
  | stream part bytes => simpa only [List.append_nil] using stream part bytes [] he
  | command v => rw [decode, decodeCommand_of_encode hw he]

/-- Settles O2: the other direction of the decoder's specification. -/
theorem decodedTokenIsItsEncoding : Obligations.DecodedTokenIsItsEncoding := fun _ _ _ _ h =>
  decodeStream_eq_ok_iff.mp h

/-- Settles O3: the reader of counts inverts `cnt`, whose first byte is `00` for the count 0 only. -/
theorem countOperandReadsBack : Obligations.CountOperandReadsBack := by
  intro n rest h1 hn
  refine ⟨readCount_countBytes hn, ?_⟩
  obtain ⟨x, tail, hcons, hzero, _⟩ := countBytes_eq_cons n
  rw [hcons, List.head?_cons, Ne, Option.some.injEq, hzero]
  omega

/-- Settles O28: by cases on the phase; only a body step covers pixels. -/
theorem emittedTokensAreLegal : Obligations.EmittedTokensAreLegal := by
  intro s i hs hi
  rcases State.nextToken_cases hi with ⟨_, rfl⟩ | ⟨_, _, hc, rfl⟩ | ⟨_, _, rfl⟩ | ⟨_, rfl⟩ | ⟨_, rfl⟩ |
    ⟨hp, rfl⟩
  · exact legal_of_pixelCount_eq_zero hs rfl rfl
  · obtain ⟨hw, _, hn⟩ := selectToken_legal s.px s.row.toNat hc
    exact ⟨hw, row_pos_of_selectToken hc, fun _ => hn⟩
  · exact legal_of_pixelCount_eq_zero hs rfl rfl
  · exact legal_of_pixelCount_eq_zero hs rfl rfl
  · exact legal_of_pixelCount_eq_zero hs rfl rfl
  · exact legal_of_pixelCount_eq_zero hs (decide_eq_true (hs.aligned hp)) rfl

/-- Settles O4: the decoder evaluates on each word. -/
theorem wordsOfTheSpecDecode : Obligations.WordsOfTheSpecDecode := by
  unfold Obligations.WordsOfTheSpecDecode
  decide

/-- Settles O11. -/
theorem commandWriteIsDecodedCommand : Obligations.CommandWriteIsDecodedCommand := fun s v =>
  (exec_decodeCommand v s).symm

end Sys2Proof
end

section
/-! SUPPORT. The Field Packer in general: the bits of a number over a width, most significant first, and the bytes that
they split into (R111 to R113). -/

namespace Sys2Proof.Machine

variable {v : Nat}

/-! ## The bits of a number -/

/-- The low `width` bits of a number, most significant first (R111). -/
def bigEndianBits (v width : Nat) : List Bool := (List.range width).map fun j => v.testBit (width - 1 - j)

@[simp] theorem length_bigEndianBits (v width : Nat) : (bigEndianBits v width).length = width := by
  simp [bigEndianBits]

theorem bigEndianBits_succ (v width : Nat) :
    bigEndianBits v (width + 1) = v.testBit width :: bigEndianBits v width := by
  simp [bigEndianBits, List.range_succ_eq_map, Nat.sub_sub, Nat.add_comm]

theorem getD_bigEndianBits {width j : Nat} (h : j < width) :
    (bigEndianBits v width).getD j false = v.testBit (width - 1 - j) := by
  simp [bigEndianBits, h]

/-- Padding a number that fits on the left with zero bits gives its bits over the larger width (R112). -/
theorem replicate_append_bigEndianBits {width : Nat} (hv : v < 2 ^ width) (pad : Nat) :
    List.replicate pad false ++ bigEndianBits v width = bigEndianBits v (width + pad) := by
  induction pad with
  | zero => rfl
  | succ pad ih =>
    have hbit : v.testBit (width + pad) = false :=
      Nat.testBit_lt_two_pow (hv.trans_le (Nat.pow_le_pow_right Nat.two_pos (Nat.le_add_right ..)))
    rw [List.replicate_succ, List.cons_append, ih, ← Nat.add_assoc, bigEndianBits_succ, hbit]

theorem toBits_of_overflow {value : Int} {width : Nat} (h : value < 0 ∨ (2 : Int) ^ width ≤ value) :
    toBits value width = .error ⟨value, width⟩ :=
  if_pos (by simpa using h)

theorem toBits_of_fits {value : Int} {width : Nat} (h0 : 0 ≤ value) (hw : value < (2 : Int) ^ width) :
    toBits value width = .ok (bigEndianBits value.toNat width) :=
  if_neg (by simpa using And.intro h0 hw)

/-! ## The bytes of a number -/

/-- The low `count` bytes of a number, least significant first (R113). -/
def littleEndianBytes (v count : Nat) : List Byte := (List.range count).map fun i => BitVec.ofNat 8 (v >>> (8 * i))

@[simp] theorem length_littleEndianBytes (v count : Nat) : (littleEndianBytes v count).length = count := by
  simp [littleEndianBytes]

theorem littleEndianBytes_succ (v count : Nat) :
    littleEndianBytes v (count + 1) = littleEndianBytes v count ++ [BitVec.ofNat 8 (v >>> (8 * count))] := by
  simp [littleEndianBytes, List.range_succ]

theorem toNat_getD_littleEndianBytes {count i : Nat} (h : i < count) :
    ((littleEndianBytes v count).getD i 0).toNat = (v >>> (8 * i)) &&& 0xFF := by
  simp [littleEndianBytes, h, Nat.and_two_pow_sub_one_eq_mod _ 8]

/-- The first eight of a whole number of bytes' bits are the most significant byte (R112). -/
theorem splitBytes_bigEndianBits_succ (v count : Nat) :
    splitBytes (bigEndianBits v (8 * (count + 1))) =
      BitVec.ofNat 8 (v >>> (8 * count)) :: splitBytes (bigEndianBits v (8 * count)) := by
  simp only [Nat.mul_succ, bigEndianBits_succ, splitBytes, byteOfBits_testBit]

theorem reverse_splitBytes_bigEndianBits (v count : Nat) :
    (splitBytes (bigEndianBits v (8 * count))).reverse = littleEndianBytes v count := by
  induction count with
  | zero => rfl
  | succ count ih => rw [splitBytes_bigEndianBits_succ, List.reverse_cons, ih, littleEndianBytes_succ]

/-- The bits of a number that fits pack into its bytes, least significant first (R112). -/
theorem toBytes_bigEndianBits {width : Nat} (hv : v < 2 ^ width) :
    toBytes (bigEndianBits v width) = littleEndianBytes v ((width + 7) / 8) := by
  have hpad : width + (8 - width % 8) % 8 = 8 * ((width + 7) / 8) := by omega
  rw [toBytes, length_bigEndianBits, replicate_append_bigEndianBits hv, hpad, reverse_splitBytes_bigEndianBits]

theorem pack_of_lt {width : Nat} (hv : v < 2 ^ width) :
    pack v width = .ok (littleEndianBytes v ((width + 7) / 8)) := by
  have hbits : toBits v width = .ok (bigEndianBits v width) := toBits_of_fits v.cast_nonneg (by exact_mod_cast hv)
  rw [pack, hbits]
  exact congrArg Except.ok (toBytes_bigEndianBits hv)

/-- The bytes of a number are its low digits in base 256. -/
theorem sum_littleEndian (v count : Nat) :
    ∑ i ∈ Finset.range count, ((v >>> (8 * i)) &&& 0xFF) * 256 ^ i = v % 256 ^ count := by
  induction count with
  | zero => simp [Nat.mod_one]
  | succ count ih =>
    have hbyte : (v >>> (8 * count)) &&& 0xFF = v / 256 ^ count % 256 := by
      rw [Nat.and_two_pow_sub_one_eq_mod _ 8, Nat.shiftRight_eq_div_pow, Nat.pow_mul]
    rw [Finset.sum_range_succ, ih, hbyte, Nat.mod_pow_succ, Nat.mul_comm]

theorem lt_256_pow_of_lt_two_pow {width : Nat} (hv : v < 2 ^ width) : v < 256 ^ ((width + 7) / 8) :=
  calc v < 2 ^ width := hv
    _ ≤ 2 ^ (8 * ((width + 7) / 8)) := Nat.pow_le_pow_right Nat.two_pos (by omega)
    _ = 256 ^ ((width + 7) / 8) := Nat.pow_mul ..

end Sys2Proof.Machine
end

section
/-! PROOFS. The statements about the Field Packer. -/

namespace Sys2Proof.Machine

/-- Settles O5: a value that fits is answered as `bigEndianBits`. -/
theorem toBitsIsBigEndianOrOverflows : Obligations.ToBitsIsBigEndianOrOverflows := fun _ _ =>
  ⟨toBits_of_overflow, fun ⟨h0, hw⟩ =>
    ⟨_, toBits_of_fits h0 hw, length_bigEndianBits _ _, fun _ hj => getD_bigEndianBits hj⟩⟩

/-- Settles O6: the packed bytes are `littleEndianBytes`, and `ceil(w/8)` digits in base 256 hold a value of `w`
bits. -/
theorem packedValueIsLittleEndian : Obligations.PackedValueIsLittleEndian := by
  intro width v _ _ hv
  refine ⟨_, pack_of_lt hv, length_littleEndianBytes _ _, fun i hi => ?_, ?_⟩
  · exact toNat_getD_littleEndianBytes (by simpa using hi)
  · rw [length_littleEndianBytes]
    calc v = v % 256 ^ ((width + 7) / 8) := (Nat.mod_eq_of_lt (lt_256_pow_of_lt_two_pow hv)).symm
      _ = ∑ i ∈ Finset.range ((width + 7) / 8), ((v >>> (8 * i)) &&& 0xFF) * 256 ^ i := (sum_littleEndian ..).symm
      _ = _ := Finset.sum_congr rfl fun i hi =>
        congrArg (· * 256 ^ i) (toNat_getD_littleEndianBytes (Finset.mem_range.mp hi)).symm

end Sys2Proof.Machine
end

section
/-! SUPPORT. The composed byte as a number and bit by bit, and what the compose step leaves in `FRAME` (R121 to
R126). -/

namespace Sys2Proof.Machine

variable {s t : State} {r c k : Nat}

/-- The number with given bits is their sum with the weights `2^i`. -/
theorem ofBits_eq_sum (bit : Nat → Bool) (width : Nat) :
    Nat.ofBits (fun i : Fin width => bit i) = ∑ i ∈ Finset.range width, (bit i).toNat * 2 ^ i := by
  induction width generalizing bit with
  | zero => rfl
  | succ width ih =>
    have hhigh : ∑ i ∈ Finset.range width, (bit (i + 1)).toNat * 2 ^ (i + 1) =
        2 * Nat.ofBits (fun i : Fin width => bit (i + 1)) := by
      rw [ih fun i => bit (i + 1), Finset.mul_sum]
      exact Finset.sum_congr rfl fun i _ => by ring
    rw [Finset.sum_range_succ', hhigh, Nat.ofBits_succ, pow_zero, mul_one]
    rfl

/-! ## The composed byte -/

/-- A composed byte is the number whose bits are its eight planes (R122). -/
theorem State.composedByte_eq_ofBits (s : State) (r c k : Nat) :
    s.composedByte r c k = BitVec.ofNat 8 (Nat.ofBits fun i : Fin 8 => s.suppliedBit r c (8 * (2 - k) + i)) := by
  rw [ofBits_eq_sum fun i => s.suppliedBit r c (8 * (2 - k) + i)]
  simp [State.composedByte, List.range_succ, Finset.sum_range_succ]

/-- Eight planes fit the byte: the sum of R122 is not cut off. -/
theorem State.composedByte_toNat (s : State) (r c k : Nat) :
    (s.composedByte r c k).toNat = ∑ i ∈ Finset.range 8, (s.suppliedBit r c (8 * (2 - k) + i)).toNat * 2 ^ i := by
  rw [State.composedByte_eq_ofBits, BitVec.toNat_ofNat, Nat.mod_eq_of_lt (Nat.ofBits_lt_two_pow _),
    ofBits_eq_sum fun i => s.suppliedBit r c (8 * (2 - k) + i)]

/-- Each bit of a composed byte is one plane (R125). -/
theorem State.getLsbD_composedByte (s : State) (r c k : Nat) {i : Nat} (hi : i < 8) :
    (s.composedByte r c k).getLsbD i = s.suppliedBit r c (8 * (2 - k) + i) := by
  rw [State.composedByte_eq_ofBits, BitVec.getLsbD_ofNat, Nat.testBit_ofBits_lt _ _ hi, decide_eq_true hi,
    Bool.true_and]

/-- A composed byte depends on `NPLANES` and on the supplied planes at its pixel only (R124). -/
theorem State.composedByte_congr (hn : s.nplanes = t.nplanes)
    (hbits : ∀ p, p < s.nplanes.toNat → s.planeBit p r c = t.planeBit p r c) :
    s.composedByte r c k = t.composedByte r c k := by
  have hsupplied (i : Nat) : s.suppliedBit r c i = t.suppliedBit r c i := by
    unfold State.suppliedBit
    rw [← hn]
    split
    · exact hbits i ‹_›
    · rfl
  simp only [State.composedByte, hsupplied]

@[simp] theorem State.startCompose_composedByte (s : State) :
    s.startCompose.composedByte r c k = s.composedByte r c k := State.composedByte_congr rfl fun _ _ => rfl

@[simp] theorem State.afterFetch_composedByte (s : State) :
    s.afterFetch.composedByte r c k = s.composedByte r c k :=
  State.composedByte_congr s.afterFetch_nplanes fun p _ => by simp [State.planeBit]

/-- The linear index of a byte of `FRAME` gives back its location (R52). -/
theorem State.composedAt_frameIndex (s : State) (hc : c < Config.width) (hk : k < Config.channels) :
    s.composedAt (frameIndex r c k) = s.composedByte r c k := by
  simp only [Config.width, Config.channels] at hc hk
  simp only [State.composedAt, frameIndex, Config.width, Config.channels]
  congr 1 <;> omega

/-! ## The compose step -/

/-- The state when a compose step has written the whole of `FRAME` (R126). -/
def State.composed (s : State) : State :=
  ({ s with frame := s.frame.fill Config.frameSize s.composedAt }).finishCompose

theorem composeStep_of_le (h : s.nplanes.toNat ≤ Config.maxPlanes) : composeStep s = .next s.composed :=
  if_neg (Nat.not_lt.mpr h)

/-- The compose step writes the composed byte to every location of `FRAME` (R126). -/
theorem State.composed_frameByte (s : State) (h : frameInside r c k = true) :
    s.composed.frameByte r c k = s.composedByte r c k := by
  have hread : s.composed.frameByte r c k = s.composedAt (frameIndex r c k) :=
    Memory.read_fill _ _ _ _ (frameIndex_lt h)
  simp only [frameInside, Bool.and_eq_true, decide_eq_true_eq] at h
  obtain ⟨⟨_, hc⟩, hk⟩ := h
  rw [hread, State.composedAt_frameIndex s hc hk]

/-- After a compose step every byte of `FRAME` is the composed byte of the planes before it (R122, R126). -/
theorem step_compose_frameByte (hp : s.phase = .compose) (hb : s.blockTurn = true) (hn : s.nplanes.toNat ≤ 24)
    (h : step s = .next t) (hr : r < 1080) (hc : c < 1920) (hk : k < 3) :
    t.frameByte r c k = s.composedByte r c k := by
  rw [step_of_compose hb hp, composeStep_of_le (by rwa [State.afterFetch_nplanes])] at h
  cases h
  rw [State.composed_frameByte _ (by simp [frameInside, hr, hc, hk]), State.afterFetch_composedByte]

/-- Starting and completing `COMPOSE` changes `FRAME` and nothing else (R38, R126). -/
theorem State.composed_startCompose (hp : s.phase = .idle) (hb : s.status.busy = false) :
    s.startCompose.composed = { s with frame := s.startCompose.composed.frame } := by
  have hstatus : { s.status with busy := false } = s.status := by rw [← hb]
  rw [State.composed, State.finishCompose, ← hp]
  simp only [State.startCompose, hstatus]

/-- `TooManyPlanes` leaves every store as it was (R187). -/
theorem State.spoilTarget_tooManyPlanes (hp : s.phase = .compose) (supplied : Reg) :
    s.spoilTarget (.tooManyPlanes supplied) = s := by simp [State.spoilTarget, hp, Phase.isEncode]

/-- With too many planes the compose step is the fault entry alone (R121, R205). -/
theorem composeStep_of_gt (hp : s.phase = .compose) (h : Config.maxPlanes < s.nplanes.toNat) :
    composeStep s = .next { s with
      phase := .fault, length := 0,
      status := { busy := false, fault := true, outValid := false, faultCode := 1 } } := by
  rw [composeStep, if_pos h, State.takeFault, State.spoilTarget_tooManyPlanes hp]
  rfl

end Sys2Proof.Machine
end

section
/-! PROOFS. The statements about the compositor. -/

namespace Sys2Proof.Machine

/-- Settles O13: the command starts the compose step, and the step fills `FRAME` with the composed bytes. -/
theorem composePacksThePlanes : Obligations.ComposePacksThePlanes := by
  intro s hp hbusy hturns hn
  have hstart : exec .compose s = .next s.startCompose := hostWrite_when_free (by simp [hp]) hbusy
  have hb : s.startCompose.blockTurn = true := by simp [State.blockTurn, hturns]
  have hfetch : s.startCompose.afterFetch = s.startCompose := by simp [State.afterFetch, hturns]
  have hstep : step s.startCompose = .next s.startCompose.composed := by
    rw [step_of_compose hb rfl, hfetch]
    exact composeStep_of_le hn
  refine ⟨_, _, hstart, hstep, State.composed_startCompose hp hbusy, fun r c k hr hc hk => ?_⟩
  rw [step_compose_frameByte rfl hb hn hstep hr hc hk, State.startCompose_composedByte, State.composedByte_toNat]
  refine Finset.sum_congr rfl fun i _ => ?_
  rw [State.suppliedBit, apply_ite Bool.toNat, Bool.toNat_false]

/-- Settles O14: plane `i` is bit `i mod 8` of the byte that holds the planes from `8 (i/8)` on. -/
theorem composeIsInvertible : Obligations.ComposeIsInvertible := by
  intro s t hp hb hn h i r c hi hr hc
  have hplane : 8 * (2 - (2 - i / 8)) + i % 8 = i := by omega
  rw [step_compose_frameByte hp hb hn h hr hc (by omega), State.getLsbD_composedByte _ _ _ _ (by omega), hplane,
    State.suppliedBit]

/-- Settles O15: each of the three bytes is a function of `NPLANES` and the supplied planes at its pixel. -/
theorem composeIsLaneWise : Obligations.ComposeIsLaneWise := by
  intro s s' t t' hp hp' hb hb' hn hle h h' r c hr hc hbits
  have hbyte (k : Nat) (hk : k < 3) : t.frameByte r c k = t'.frameByte r c k := by
    rw [step_compose_frameByte hp hb hle h hr hc hk, step_compose_frameByte hp' hb' (hn ▸ hle) h' hr hc hk]
    exact State.composedByte_congr hn hbits
  simp only [State.px, hbyte 0 (by omega), hbyte 1 (by omega), hbyte 2 (by omega)]

/-- Settles O16: the count is tested before any store is touched, and this fault spoils none. -/
theorem tooManyPlanesFaults : Obligations.TooManyPlanesFaults := by
  intro s hp hb hn
  rw [step_of_compose hb hp, State.afterFetch_of_blockTurn hb]
  exact composeStep_of_gt hp hn

end Sys2Proof.Machine
end

section
/-! SUPPORT. The tokens of a row as the scan meets them (R147, R148), and how long the parts of a stream are (R94,
R151, R152). -/

namespace Sys2Proof.Machine

open Sys2Proof.Laws

variable {F : Image} {r c : Nat} {i : Instr} {is : List Instr}

/-- The scan of a row from a column to its end: the selected token, then the scan from the column after it (R147). -/
inductive RowScan (F : Image) (r : Nat) : Nat → List Instr → Prop
  | done : RowScan F r Config.width []
  | token {c : Nat} {is : List Instr} (hc : c < Config.width)
    (rest : RowScan F r (c + pixelCount (selectToken F r c)) is) : RowScan F r c (selectToken F r c :: is)

/-- With a step for each column that is left, the tokens listed are a whole scan (R148). -/
theorem rowScan_rowTokens {fuel : Nat} (hc : c ≤ Config.width) (hfuel : Config.width ≤ c + fuel) :
    RowScan F r c (rowTokens F r fuel c) := by
  induction fuel generalizing c with
  | zero =>
    obtain rfl : c = Config.width := Nat.le_antisymm hc hfuel
    exact .done
  | succ fuel ih =>
    rw [rowTokens]
    split
    · rename_i hlt
      obtain ⟨_, h1, hn⟩ := selectToken_legal F r hlt
      exact .token hlt (ih hn (by omega))
    · obtain rfl : c = Config.width := by omega
      exact .done

theorem rowScan_tokensOfRow (F : Image) (r : Nat) : RowScan F r 0 (tokensOfRow F r) :=
  rowScan_rowTokens (Nat.zero_le _) (by simp)

/-- A well-formed token that covers pixels is a token of the body (R82). -/
theorem bodyToken_of_pixels (hw : i.WellFormed) (h1 : 1 ≤ pixelCount i) : BodyToken i := by
  refine .of_encode (bytes := tokenBytes i) hw ?_
  cases i with
  | vrepS | vrepL | pix | hrepS | hrepL | litsS | litsL => rfl
  | hdr | eol | eoi | pad | nop | compose | encode | reserved => simp [pixelCount] at h1

/-- A token of pixels takes three bytes or more, and four or more where its count does not fit one byte (R94). -/
theorem length_tokenBytes_ge (hw : i.WellFormed) (h1 : 1 ≤ pixelCount i) :
    3 ≤ (tokenBytes i).length ∧ (Config.shortCountMax < pixelCount i → 4 ≤ (tokenBytes i).length) := by
  cases bodyToken_of_pixels hw h1 with
  | vrep n =>
    rw [tokenBytes_vrepToken, pixelCount_vrepToken, List.length_cons, List.length_cons, length_countBytes]
    simp only [Config.shortCountMax]
    split <;> omega
  | hrep n p =>
    rw [tokenBytes_hrepToken, pixelCount_hrepToken, List.length_append, length_countBytes,
      show (pixelBytes p).length = 3 from rfl]
    simp only [Config.shortCountMax]
    split <;> omega
  | lits ps h2 =>
    rw [tokenBytes_litsToken, List.length_cons, List.length_append, length_payload]
    omega
  | eol | eoi => simp [pixelCount] at h1

/-- Four bytes for each pixel bound the tokens of a row (R151). -/
theorem RowScan.length_le (h : RowScan F r c is) : (is.flatMap tokenBytes).length + 4 * c ≤ 4 * Config.width := by
  induction h with
  | done => simp
  | token hc _ ih =>
    obtain ⟨hw, h1, _⟩ := selectToken_legal F r hc
    have hlen := length_tokenBytes_le_four_pixelCount hw h1
    rw [List.flatMap_cons, List.length_append]
    omega

/-- A whole row takes four bytes or more: a token that ends before the row does is followed by another one, and one
that covers the row has a two-byte count. -/
theorem RowScan.four_le_length (h : RowScan F r 0 is) : 4 ≤ (is.flatMap tokenBytes).length := by
  generalize hzero : 0 = start at h
  cases h with
  | done => simp at hzero
  | token hc rest =>
    obtain ⟨hw, h1, _⟩ := selectToken_legal F r hc
    obtain ⟨h3, h4⟩ := length_tokenBytes_ge hw h1
    rw [List.flatMap_cons, List.length_append]
    generalize hend : start + pixelCount (selectToken F r start) = stop at rest
    cases rest with
    | done =>
      have := h4 (by simp only [Config.width, Config.shortCountMax] at hend ⊢; omega)
      omega
    | token hc' =>
      obtain ⟨hw', h1', _⟩ := selectToken_legal F r hc'
      have := (length_tokenBytes_ge hw' h1').left
      rw [List.flatMap_cons, List.length_append]
      omega

theorem length_rowBytes_bounds (F : Image) (r : Nat) :
    6 ≤ (rowBytes F r).length ∧ (rowBytes F r).length ≤ 7682 := by
  have hscan := rowScan_tokensOfRow F r
  have hle := hscan.length_le
  have hge := hscan.four_le_length
  rw [rowBytes, List.length_append, show (tokenBytes .eol).length = 2 from rfl]
  simp only [Config.width] at hle
  omega

theorem length_bodyBytes_bounds (F : Image) :
    6483 ≤ (bodyBytes F).length ∧ (bodyBytes F).length ≤ 8296563 := by
  have hle := List.sum_le_card_nsmul ((List.range Config.height).map fun r => (rowBytes F r).length) 7682
    (by simpa using fun r _ => (length_rowBytes_bounds F r).right)
  have hge := List.card_nsmul_le_sum ((List.range Config.height).map fun r => (rowBytes F r).length) 6
    (by simpa using fun r _ => (length_rowBytes_bounds F r).left)
  rw [bodyBytes, List.length_append, List.length_flatMap, show (tokenBytes .eoi).length = 3 from rfl]
  simp only [List.length_map, List.length_range, smul_eq_mul, Config.height] at hle hge ⊢
  omega

/-- The length of a stream: a multiple of 4 within its bounds (R151, R152). -/
theorem streamLength_bounds (F : Image) :
    streamLength F % 4 = 0 ∧ 6532 ≤ streamLength F ∧ streamLength F ≤ 8296612 := by
  obtain ⟨hge, hle⟩ := length_bodyBytes_bounds F
  obtain ⟨h3, h4⟩ := padCount_aligns (Config.headerLength + (bodyBytes F).length)
  simp only [streamLength, Config.headerLength] at h3 h4 ⊢
  omega

/-- The length fits the header's field (R58). -/
theorem toNat_streamLength (F : Image) : (BitVec.ofNat 32 (streamLength F)).toNat = streamLength F := by
  obtain ⟨_, _, hle⟩ := streamLength_bounds F
  rw [BitVec.toNat_ofNat]
  omega

theorem length_encodeImage (F : Image) : (encodeImage F).length = streamLength F := by
  rw [encodeImage, List.length_append, List.length_append, length_header, List.length_replicate]
  rfl

end Sys2Proof.Machine
end

section
/-! PROOFS. The length of every stream. -/

namespace Sys2Proof.Machine

/-- Settles O32: every row takes 6 to 7682 bytes, and the four header bytes at offset 8 are those of the length. -/
theorem streamLengthIsBoundedAndPatched : Obligations.StreamLengthIsBoundedAndPatched := by
  intro F
  obtain ⟨h4, hge, hle⟩ := streamLength_bounds F
  have hfield : ((encodeImage F).drop 8).take 4 = regBytes (BitVec.ofNat 32 (streamLength F)) := by
    rw [encodeImage, tokenBytes_hdr]
    rfl
  refine ⟨length_encodeImage F, h4, hge, hle, ?_⟩
  rw [hfield, numberOfBytes_regBytes, toNat_streamLength]

end Sys2Proof.Machine
end

section
/-! SUPPORT. The reference decoder on the tokens of an image (R171 to R175): after each token it holds exactly the
pixels that the scan has passed. -/

namespace Sys2Proof.Machine

variable {F : Image} {r c n : Nat} {d d' e : DecoderState} {i : Instr} {is js : List Instr}

/-! ## The token loop -/

/-- From one decoder state to another by body tokens before `EOI`. -/
inductive Reads : DecoderState → List Instr → DecoderState → Prop
  | nil (d : DecoderState) : Reads d [] d
  | cons {d d' e : DecoderState} {i : Instr} {is : List Instr} (hi : BodyToken i) (htoken : d.token i = some d')
    (rest : Reads d' is e) : Reads d (i :: is) e

theorem Reads.single (hi : BodyToken i) (htoken : d.token i = some e) : Reads d [i] e := .cons hi htoken (.nil e)

theorem Reads.append (h : Reads d is d') (h' : Reads d' js e) : Reads d (is ++ js) e := by
  induction h with
  | nil => exact h'
  | cons hi htoken _ ih => exact .cons hi htoken (ih h')

/-- One turn of the token loop on a token's own bytes (R174). -/
theorem decodeTokens_token (hi : BodyToken i) (htoken : d.token i = some e) (fuel : Nat) (rest : List Byte) :
    decodeTokens (fuel + 1) (tokenBytes i ++ rest) d = decodeTokens fuel rest e := by
  have hne : i ≠ .eoi := by
    rintro rfl
    cases htoken
  simp only [decodeTokens, decodeBody_eq_ok_iff.mpr ⟨hi, rfl⟩, if_neg hne, htoken]

theorem decodeTokens_eoi (fuel : Nat) (rest : List Byte) (d : DecoderState) :
    decodeTokens (fuel + 1) (tokenBytes .eoi ++ rest) d = some (d, rest) := rfl

/-- The token loop on the bytes of a sequence of tokens. -/
theorem Reads.decodeTokens_eq (h : Reads d is e) (fuel : Nat) (rest : List Byte) :
    decodeTokens (fuel + is.length) (is.flatMap tokenBytes ++ rest) d = decodeTokens fuel rest e := by
  induction h with
  | nil => rfl
  | cons hi htoken _ ih =>
    rw [List.length_cons, ← Nat.add_assoc, List.flatMap_cons, List.append_assoc, decodeTokens_token hi htoken, ih]

theorem one_le_length_tokenBytes (hi : BodyToken i) : 1 ≤ (tokenBytes i).length := by
  cases hi with
  | vrep n => simp [tokenBytes_vrepToken]
  | hrep n p => simp [tokenBytes_hrepToken, pixelBytes]
  | lits ps => simp [tokenBytes_litsToken]
  | eol | eoi => simp [tokenBytes]

/-- Every body token is at least one byte long, so the bytes bound the number of turns. -/
theorem Reads.length_le (h : Reads d is e) : is.length ≤ (is.flatMap tokenBytes).length := by
  induction h with
  | nil => rfl
  | cons hi _ _ ih =>
    have hlen := one_le_length_tokenBytes hi
    rw [List.flatMap_cons, List.length_append, List.length_cons]
    omega

/-! ## What a token means to the reader, by its count -/

theorem DecoderState.token_vrepToken (d : DecoderState) (n : Nat) : d.token (vrepToken n) = d.repeatAbove n := by
  unfold vrepToken
  split <;> rfl

theorem DecoderState.token_hrepToken (d : DecoderState) (n : Nat) (p : Pixel) :
    d.token (hrepToken n p) = d.push (List.replicate n p) := by
  unfold hrepToken
  split
  · subst n
    rfl
  · split <;> rfl

theorem DecoderState.token_litsToken (d : DecoderState) (ps : List Pixel) : d.token (litsToken ps) = d.push ps := by
  unfold litsToken
  split <;> rfl

/-! ## The pixels of a run -/

theorem pixelsFrom_append (F : Image) (r c m n : Nat) :
    pixelsFrom F r c m ++ pixelsFrom F r (c + m) n = pixelsFrom F r c (m + n) := by
  simp [pixelsFrom, List.range_add, Function.comp_def, Nat.add_assoc]

theorem pixelsFrom_congr {G : Image} {q : Nat} (h : ∀ j, j < n → F r (c + j) = G q (c + j)) :
    pixelsFrom F r c n = pixelsFrom G q c n :=
  List.map_congr_left fun j hj => h j (List.mem_range.mp hj)

theorem pixelsFrom_eq_replicate {p : Pixel} (h : ∀ j, j < n → F r (c + j) = p) :
    pixelsFrom F r c n = List.replicate n p := by
  refine List.eq_replicate_iff.mpr ⟨length_pixelsFrom F r c n, fun q hq => ?_⟩
  obtain ⟨j, hj, rfl⟩ := List.mem_map.mp hq
  exact h j (List.mem_range.mp hj)

/-- The pixels of a vertical repeat are those above them (R137). -/
theorem pixelsFrom_verticalCount (F : Image) (r c : Nat) :
    pixelsFrom F r c (verticalCount F r c) = pixelsFrom F (r - 1) c (verticalCount F r c) :=
  pixelsFrom_congr fun _ hj => (vertical_iff.mp (extent_holds _ hj)).right.right

/-- The pixels of a horizontal repeat are all its colour (R138). -/
theorem pixelsFrom_horizontalCount (F : Image) (r c : Nat) :
    pixelsFrom F r c (horizontalCount F r c) = List.replicate (horizontalCount F r c) (F r c) :=
  pixelsFrom_eq_replicate fun _ hj => of_decide_eq_true (extent_holds (fun k => decide (F r k = F r c)) hj)

/-! ## The reader along the scan -/

/-- The decoder with the rows before `r` complete and `c` pixels of row `r` read (R171). -/
def readerAt (F : Image) (r c : Nat) : DecoderState where
  rows := (List.range r).map fun q => pixelsFrom F q 0 Config.width
  cur  := pixelsFrom F r 0 c

@[simp] theorem length_readerAt_cur (F : Image) (r c : Nat) : (readerAt F r c).cur.length = c :=
  length_pixelsFrom F r 0 c

@[simp] theorem length_readerAt_rows (F : Image) (r c : Nat) : (readerAt F r c).rows.length = r := by
  rw [readerAt, List.length_map, List.length_range]

theorem readerAt_rows_succ (F : Image) (r c : Nat) :
    (readerAt F (r + 1) c).rows = (readerAt F r Config.width).rows ++ [(readerAt F r Config.width).cur] := by
  simp only [readerAt, List.range_succ, List.map_append, List.map_singleton]

theorem readerAt_push (h : c + n ≤ Config.width) :
    (readerAt F r c).push (pixelsFrom F r c n) = some (readerAt F r (c + n)) := by
  have happend := pixelsFrom_append F r 0 c n
  rw [Nat.zero_add] at happend
  rw [DecoderState.push, length_readerAt_cur, length_pixelsFrom, if_neg (Nat.not_lt_of_le h), readerAt, happend]
  rfl

theorem readerAt_above (hr : 0 < r) (h : c + n ≤ Config.width) :
    (readerAt F r c).above n = some (pixelsFrom F (r - 1) c n) := by
  obtain ⟨q, rfl⟩ : ∃ q, r = q + 1 := ⟨r - 1, by omega⟩
  have hrow : (readerAt F q Config.width).cur =
      pixelsFrom F q 0 c ++ (pixelsFrom F q c n ++ pixelsFrom F q (c + n) (Config.width - (c + n))) := by
    have hleft := pixelsFrom_append F q 0 c (n + (Config.width - (c + n)))
    rw [Nat.zero_add] at hleft
    rw [pixelsFrom_append, hleft, readerAt, show c + (n + (Config.width - (c + n))) = Config.width by omega]
  have hlast : (readerAt F (q + 1) c).rows.getLast? = some (readerAt F q Config.width).cur := by
    rw [readerAt_rows_succ, List.getLast?_concat]
  simp only [DecoderState.above, hlast, length_readerAt_cur, Nat.add_sub_cancel]
  rw [hrow, List.drop_left' (length_pixelsFrom ..), List.take_left' (length_pixelsFrom ..)]

theorem readerAt_endRow (hr : r < Config.height) :
    (readerAt F r Config.width).endRow = some (readerAt F (r + 1) 0) := by
  rw [DecoderState.endRow, length_readerAt_cur, length_readerAt_rows, if_pos ⟨rfl, Nat.ne_of_lt hr⟩,
    ← readerAt_rows_succ F r 0]
  rfl

/-- The selected token tells the reader exactly the pixels it covers (R136, R174). -/
theorem readerAt_selectToken (hc : c < Config.width) :
    (readerAt F r c).token (selectToken F r c) = some (readerAt F r (c + pixelCount (selectToken F r c))) := by
  rcases selectToken_cases F r hc with ⟨hv, _, hn, he⟩ | ⟨_, _, _, hn, he⟩ | ⟨_, _, he⟩ | ⟨_, _, _, hn, he⟩
  · have hr := (vertical_iff.mp hv).left
    have hfit : ¬Config.width < (readerAt F r c).cur.length + verticalCount F r c := by
      rw [length_readerAt_cur]
      omega
    rw [he, DecoderState.token_vrepToken, pixelCount_vrepToken, DecoderState.repeatAbove, if_neg hfit]
    simp only [readerAt_above hr hn, ← pixelsFrom_verticalCount, readerAt_push hn]
  · rw [he, DecoderState.token_hrepToken, pixelCount_hrepToken, ← pixelsFrom_horizontalCount, readerAt_push hn]
  · rw [he]
    exact readerAt_push (n := 1) hc
  · rw [he, DecoderState.token_litsToken, pixelCount_litsToken, length_pixelsFrom, readerAt_push hn]

theorem RowScan.reads (h : RowScan F r c is) : Reads (readerAt F r c) is (readerAt F r Config.width) := by
  induction h with
  | done => exact .nil _
  | token hc _ ih =>
    obtain ⟨hw, h1, _⟩ := selectToken_legal F r hc
    exact .cons (bodyToken_of_pixels hw h1) (readerAt_selectToken hc) ih

/-- The tokens of the rows before `r`, each row with its `EOL` (R147). -/
def tokensBefore (F : Image) (r : Nat) : List Instr := (List.range r).flatMap fun q => tokensOfRow F q ++ [Instr.eol]

theorem tokensBefore_succ (F : Image) (r : Nat) :
    tokensBefore F (r + 1) = tokensBefore F r ++ (tokensOfRow F r ++ [Instr.eol]) := by
  simp [tokensBefore, List.range_succ]

theorem reads_tokensBefore (hr : r ≤ Config.height) : Reads (readerAt F 0 0) (tokensBefore F r) (readerAt F r 0) := by
  induction r with
  | zero => exact .nil _
  | succ r ih =>
    rw [tokensBefore_succ]
    exact (ih (Nat.le_of_succ_le hr)).append
      ((rowScan_tokensOfRow F r).reads.append (.single .eol (readerAt_endRow hr)))

theorem bodyBytes_eq_tokens (F : Image) :
    bodyBytes F = (tokensBefore F Config.height).flatMap tokenBytes ++ tokenBytes .eoi := by
  have hrow : rowBytes F = fun r => (tokensOfRow F r ++ [Instr.eol]).flatMap tokenBytes := by
    funext r
    rw [rowBytes, List.flatMap_append, List.flatMap_singleton]
  rw [bodyBytes, hrow, tokensBefore, List.flatMap_assoc]

theorem imageRows_eq_readerAt (F : Image) : imageRows F = (readerAt F Config.height 0).rows := by
  simp only [imageRows, readerAt, pixelsFrom, Nat.zero_add]

/-- The token loop on the body of an image: every row is read, and the bytes after `EOI` are left (R174). -/
theorem decodeTokens_bodyBytes {fuel : Nat} (hfuel : (bodyBytes F).length ≤ fuel) (rest : List Byte) :
    decodeTokens fuel (bodyBytes F ++ rest) ⟨[], []⟩ = some (readerAt F Config.height 0, rest) := by
  have hreads : Reads ⟨[], []⟩ (tokensBefore F Config.height) (readerAt F Config.height 0) :=
    reads_tokensBefore (Nat.le_refl _)
  have hlen := hreads.length_le
  rw [bodyBytes_eq_tokens] at hfuel ⊢
  rw [List.length_append, show (tokenBytes .eoi).length = 3 from rfl] at hfuel
  obtain ⟨k, hk⟩ : ∃ k, fuel = k + 1 + (tokensBefore F Config.height).length :=
    ⟨fuel - 1 - (tokensBefore F Config.height).length, by omega⟩
  rw [hk, List.append_assoc, hreads.decodeTokens_eq, decodeTokens_eoi]

/-- The header of a stream tells its length (R172). -/
theorem headerMatches_encodeImage (F : Image) : headerMatches (encodeImage F) = true := by
  obtain ⟨h4, _⟩ := streamLength_bounds F
  have hheader : decodeHeader (encodeImage F) = .ok (.hdr (BitVec.ofNat 32 (streamLength F)), bodyBytes F ++
      List.replicate (padCount (Config.headerLength + (bodyBytes F).length)) 0x00) :=
    decodeHeader_eq_ok_iff.mpr ⟨_, by rwa [toNat_streamLength], rfl, by rw [encodeImage, List.append_assoc]⟩
  rw [headerMatches, hheader]
  exact decide_eq_true ((toNat_streamLength F).trans (length_encodeImage F).symm)

theorem encodeImage_drop_header (F : Image) :
    (encodeImage F).drop Config.headerLength =
      bodyBytes F ++ List.replicate (padCount (Config.headerLength + (bodyBytes F).length)) 0x00 := by
  rw [encodeImage, List.append_assoc, List.drop_left' (Laws.length_header _)]

end Sys2Proof.Machine
end

section
/-! PROOFS. The round trip through the reference decoder. -/

namespace Sys2Proof.Machine

/-- Settles O35: by induction over the rows and the scan of each row, the reader holds the pixels the scan has
passed. -/
theorem decoderReadsEncodedImageBack : Obligations.DecoderReadsEncodedImageBack := by
  intro F
  obtain ⟨h3, _⟩ := padCount_aligns (Config.headerLength + (bodyBytes F).length)
  have hfuel : (bodyBytes F).length ≤ (encodeImage F).length := by
    rw [length_encodeImage, streamLength]
    omega
  have hcur : (readerAt F Config.height 0).cur = [] := rfl
  rw [decodeStreamImage, headerMatches_encodeImage, if_pos rfl, encodeImage_drop_header]
  simp only [decodeTokens_bodyBytes hfuel, length_readerAt_rows, hcur, imageRows_eq_readerAt]
  exact if_pos (by simpa using h3)

end Sys2Proof.Machine
end

section
/-! SUPPORT. Which token is selected, from the pixels at the scan position (R133 to R140), and what may follow it in
its row (R156); all of it depends on two rows only (R147). -/

namespace Sys2Proof.Machine

variable {F : Image} {r c k n : Nat}

/-! ## The predicates from the pixels -/

theorem vertical_eq_false (h : r = 0 ∨ F r k ≠ F (r - 1) k) : vertical F r k = false := by
  refine Bool.eq_false_iff.mpr fun hv => ?_
  obtain ⟨hr, _, heq⟩ := vertical_iff.mp hv
  exact h.elim (Nat.ne_of_gt hr) (fun hne => hne heq)

theorem horizontal_eq_false (h : k = 1919 ∨ F r k ≠ F r (k + 1)) : horizontal F r k = false := by
  refine Bool.eq_false_iff.mpr fun hh => ?_
  obtain ⟨hk, heq⟩ := horizontal_iff.mp hh
  exact h.elim (by omega) (fun hne => hne heq)

/-- Beyond the row end and where a repeat starts no pixel is a literal (R135). -/
theorem literal_eq_false
    (h : k = 1920 ∨ (0 < r ∧ F r k = F (r - 1) k) ∨ (k + 1 ≤ 1919 ∧ F r k = F r (k + 1))) : literal F r k = false := by
  refine Bool.eq_false_iff.mpr fun hl => ?_
  obtain ⟨hk, hv, hh⟩ := literal_iff.mp hl
  rcases h with rfl | ⟨hr, heq⟩ | ⟨hk', heq⟩
  · omega
  · rw [vertical_iff.mpr ⟨hr, hk, heq⟩] at hv
    cases hv
  · rw [horizontal_iff.mpr ⟨hk', heq⟩] at hh
    cases hh

/-! ## The selected token from the pixels -/

/-- `n` pixels that equal those above, and no more of them, are a vertical repeat of `n` (R137). -/
theorem selectToken_of_vertical (hr : 0 < r) (h1 : 1 ≤ n) (hn : c + n ≤ 1920)
    (hmatch : ∀ k, c ≤ k → k < c + n → F r k = F (r - 1) k)
    (hstop : c + n = 1920 ∨ F r (c + n) ≠ F (r - 1) (c + n)) : selectToken F r c = vrepToken n := by
  have hholds (j : Nat) (hj : j < n) : vertical F r (c + j) = true :=
    vertical_iff.mpr ⟨hr, by omega, hmatch _ (by omega) (by omega)⟩
  have hcount : verticalCount F r c = n :=
    extent_eq (by simp only [Config.width]; omega) hholds
      (hstop.imp (by simp only [Config.width]; omega) (fun hne => vertical_eq_false (.inr hne)))
  have hv : vertical F r c = true := hholds 0 h1
  rw [selectToken, if_pos hv, hcount]

/-- `n` pixels of one colour, and no more of them, are a horizontal repeat of `n` where no vertical one starts
(R136, R138). -/
theorem selectToken_of_horizontal (h2 : 2 ≤ n) (hn : c + n ≤ 1920) (hv : r = 0 ∨ F r c ≠ F (r - 1) c)
    (hmatch : ∀ k, c ≤ k → k < c + n → F r k = F r c) (hstop : c + n = 1920 ∨ F r (c + n) ≠ F r c) :
    selectToken F r c = hrepToken n (F r c) := by
  have hh : horizontal F r c = true :=
    horizontal_iff.mpr ⟨by omega, (hmatch (c + 1) (by omega) (by omega)).symm⟩
  have hcount : horizontalCount F r c = n :=
    extent_eq (by simp only [Config.width]; omega)
      (fun j hj => decide_eq_true (hmatch _ (by omega) (by omega)))
      (hstop.imp (by simp only [Config.width]; omega) decide_eq_false)
  rw [selectToken, vertical_eq_false hv, hh, hcount]
  rfl

/-- A literal that no literal follows is emitted alone (R139). -/
theorem selectToken_of_single (hv : r = 0 ∨ F r c ≠ F (r - 1) c) (hh : c = 1919 ∨ F r c ≠ F r (c + 1))
    (hnext : literal F r (c + 1) = false) : selectToken F r c = .pix (F r c) := by
  rw [selectToken, vertical_eq_false hv, horizontal_eq_false hh, hnext]
  rfl

/-- `n` literals, and no more of them, are a literal run of `n` (R140). -/
theorem selectToken_of_literals (h2 : 2 ≤ n) (hn : c + n ≤ 1920)
    (hlit : ∀ k, c ≤ k → k < c + n → (r = 0 ∨ F r k ≠ F (r - 1) k) ∧ (k = 1919 ∨ F r k ≠ F r (k + 1)))
    (hstop : literal F r (c + n) = false) : selectToken F r c = litsToken (pixelsFrom F r c n) := by
  have hholds (k : Nat) (hk : c ≤ k) (hk' : k < c + n) :
      vertical F r k = false ∧ horizontal F r k = false ∧ literal F r k = true := by
    obtain ⟨hv, hh⟩ := hlit k hk hk'
    have hv := vertical_eq_false hv
    have hh := horizontal_eq_false hh
    exact ⟨hv, hh, literal_iff.mpr ⟨by omega, hv, hh⟩⟩
  obtain ⟨hv, hh, _⟩ := hholds c (by omega) (by omega)
  obtain ⟨_, _, hnext⟩ := hholds (c + 1) (by omega) (by omega)
  have hcount : literalCount F r c = n :=
    extent_eq (by simp only [Config.width]; omega)
      (fun j hj => (hholds (c + j) (by omega) (by omega)).right.right) (.inr hstop)
  rw [selectToken, hv, hh, hnext, hcount]
  rfl

/-! ## The two forms of a count -/

theorem vrepToken_eq_ite (n : Nat) : vrepToken n = if n < 128 then .vrepS n else .vrepL n :=
  if_congr Nat.lt_succ_iff.symm rfl rfl

theorem hrepToken_eq_ite (h2 : 2 ≤ n) (p : Pixel) : hrepToken n p = if n < 128 then .hrepS n p else .hrepL n p := by
  rw [hrepToken, if_neg (by omega)]
  exact if_congr Nat.lt_succ_iff.symm rfl rfl

theorem litsToken_eq_ite (ps : List Pixel) :
    litsToken ps = if ps.length < 128 then .litsS ps else .litsL ps :=
  if_congr Nat.lt_succ_iff.symm rfl rfl

theorem vrepToken_forms (n : Nat) : vrepToken n = .vrepS n ∨ vrepToken n = .vrepL n := ite_eq_or_eq ..

theorem hrepToken_forms (h2 : 2 ≤ n) (p : Pixel) : hrepToken n p = .hrepS n p ∨ hrepToken n p = .hrepL n p := by
  rw [hrepToken_eq_ite h2]
  exact ite_eq_or_eq ..

theorem litsToken_forms (ps : List Pixel) : litsToken ps = .litsS ps ∨ litsToken ps = .litsL ps := ite_eq_or_eq ..

/-! ## What follows a token -/

theorem vertical_after_verticalCount (h : c + verticalCount F r c < Config.width) :
    vertical F r (c + verticalCount F r c) = false :=
  extent_stops _ (Nat.lt_sub_of_add_lt (by rwa [Nat.add_comm]))

theorem ne_after_horizontalCount (h : c + horizontalCount F r c < Config.width) :
    F r (c + horizontalCount F r c) ≠ F r c :=
  of_decide_eq_false (extent_stops (fun k => decide (F r k = F r c)) (Nat.lt_sub_of_add_lt (by rwa [Nat.add_comm])))

theorem literal_after_literalCount (h : c + literalCount F r c < Config.width) :
    literal F r (c + literalCount F r c) = false :=
  extent_stops _ (Nat.lt_sub_of_add_lt (by rwa [Nat.add_comm]))

/-- A pixel that is no literal starts a repeat (R135, R136). -/
theorem selectToken_isRepeat (hc : c < Config.width) (h : literal F r c = false) :
    ∃ n q, selectToken F r c = .vrepS n ∨ selectToken F r c = .vrepL n ∨
      selectToken F r c = .hrepS n q ∨ selectToken F r c = .hrepL n q := by
  rcases selectToken_cases F r hc with ⟨_, _, _, he⟩ | ⟨_, _, h2, _, he⟩ | ⟨hl, _⟩ | ⟨hl, _⟩
  · refine ⟨verticalCount F r c, F r c, ?_⟩
    rw [he]
    exact (vrepToken_forms _).imp_right .inl
  · refine ⟨horizontalCount F r c, F r c, .inr (.inr ?_)⟩
    rw [he]
    exact hrepToken_forms h2 _
  · simp [h] at hl
  · simp [h] at hl

/-- A pixel that does not equal the one above starts no vertical repeat (R136). -/
theorem selectToken_ne_vrep (hc : c < Config.width) (h : vertical F r c = false) (m : Nat) :
    selectToken F r c ≠ .vrepS m ∧ selectToken F r c ≠ .vrepL m := by
  rw [← not_or]
  intro hm
  rcases selectToken_cases F r hc with ⟨hv, _⟩ | ⟨_, _, _, _, he⟩ | ⟨_, _, he⟩ | ⟨_, _, _, _, he⟩
  · simp [h] at hv
  · exact not_isVerticalRepeat_hrepToken _ _ ⟨m, he ▸ hm⟩
  · simp [he] at hm
  · exact not_isVerticalRepeat_litsToken _ ⟨m, he ▸ hm⟩

/-! ## Images that agree on a row -/

theorem extent_congr {p q : Nat → Bool} {limit k : Nat} (h : ∀ j, k ≤ j → j < k + limit → p j = q j) :
    extent p limit k = extent q limit k := by
  induction limit generalizing k with
  | zero => rfl
  | succ limit ih =>
    rw [extent, extent, h k (Nat.le_refl k) (by omega), ih fun j hj hj' => h j (by omega) (by omega)]

variable {G : Image}

theorem vertical_congr (hrow : ∀ c, c < 1920 → F r c = G r c)
    (habove : 0 < r → ∀ c, c < 1920 → F (r - 1) c = G (r - 1) c) : vertical F r = vertical G r := by
  funext k
  refine Bool.eq_iff_iff.mpr ?_
  rw [vertical_iff, vertical_iff]
  refine and_congr_right fun hr => and_congr_right fun hk => ?_
  rw [hrow k (by omega), habove hr k (by omega)]

theorem horizontal_congr (hrow : ∀ c, c < 1920 → F r c = G r c) : horizontal F r = horizontal G r := by
  funext k
  refine Bool.eq_iff_iff.mpr ?_
  rw [horizontal_iff, horizontal_iff]
  refine and_congr_right fun hk => ?_
  rw [hrow k (by omega), hrow (k + 1) (by omega)]

theorem literal_congr (hv : vertical F r = vertical G r) (hh : horizontal F r = horizontal G r) :
    literal F r = literal G r := by
  funext k
  rw [literal, literal, hv, hh]

/-- The selected token depends on the row and the one above it only (R133 to R140). -/
theorem selectToken_congr (hrow : ∀ c, c < 1920 → F r c = G r c) (hv : vertical F r = vertical G r)
    (hc : c < 1920) : selectToken F r c = selectToken G r c := by
  have hh := horizontal_congr hrow
  have hl := literal_congr hv hh
  have hvcount : verticalCount F r c = verticalCount G r c := by rw [verticalCount, verticalCount, hv]
  have hhcount : horizontalCount F r c = horizontalCount G r c :=
    extent_congr fun j _ hj => by
      rw [hrow j (by simp only [Config.width] at hj; omega), hrow c hc]
  have hlcount : literalCount F r c = literalCount G r c := by rw [literalCount, literalCount, hl]
  have hpixels : pixelsFrom F r c (literalCount G r c) = pixelsFrom G r c (literalCount G r c) := by
    have hle := extent_le (literal G r) (Config.width - c) c
    refine pixelsFrom_congr fun j hj => hrow _ ?_
    simp only [literalCount, Config.width] at hle hj
    omega
  rw [selectToken, selectToken, hv, hh, hl, hvcount, hhcount, hlcount, hpixels, hrow c hc]

theorem rowTokens_congr (hrow : ∀ c, c < 1920 → F r c = G r c) (hv : vertical F r = vertical G r)
    (fuel c : Nat) : rowTokens F r fuel c = rowTokens G r fuel c := by
  induction fuel generalizing c with
  | zero => rfl
  | succ fuel ih =>
    rw [rowTokens, rowTokens]
    split
    · rename_i hc
      rw [selectToken_congr hrow hv hc, ih]
    · rfl

end Sys2Proof.Machine
end

section
/-! PROOFS. The statements about the tokens of a row. -/

namespace Sys2Proof.Machine

/-- Settles O30: each run is maximal, so what stops it is known of the pixel after it. -/
theorem rowTokenSequenceShape : Obligations.RowTokenSequenceShape := by
  intro F r c hc hin
  rcases selectToken_cases F r hc with ⟨_, _, _, he⟩ | ⟨_, _, h2, _, he⟩ | ⟨_, hnext, he⟩ | ⟨_, _, _, _, he⟩
  · rw [he, pixelCount_vrepToken] at hin
    have hafter := selectToken_ne_vrep hin (vertical_after_verticalCount hin)
    rcases vrepToken_forms (verticalCount F r c) with hform | hform
    · simpa [he, hform] using hafter
    · simpa [he, hform] using hafter
  · rw [he, pixelCount_hrepToken] at hin
    have hafter := ne_after_horizontalCount hin
    rcases hrepToken_forms h2 (F r c) with hform | hform
    · simpa [he, hform] using hafter
    · simpa [he, hform] using hafter
  · rw [he] at hin
    have hafter := selectToken_isRepeat (c := c + 1) hin hnext
    simpa [he] using hafter
  · rw [he, pixelCount_litsToken, length_pixelsFrom] at hin
    have hafter := selectToken_isRepeat hin (literal_after_literalCount hin)
    rcases litsToken_forms (pixelsFrom F r c (literalCount F r c)) with hform | hform
    · simpa [he, hform] using hafter
    · simpa [he, hform] using hafter

/-- Settles O31: by induction over the scan; each predicate, extent and payload reads the two rows only. -/
theorem rowBytesDependOnTwoRows : Obligations.RowBytesDependOnTwoRows := by
  intro F G r hrow habove
  rw [rowBytes, rowBytes, tokensOfRow, tokensOfRow, rowTokens_congr hrow (vertical_congr hrow habove)]

end Sys2Proof.Machine
end

section
/-! SUPPORT. The enabled body step as a whole: the registers it changes and the bytes it writes (R137 to R140). -/

namespace Sys2Proof.Machine

open Sys2Proof.Laws

variable {s : State} {i : Instr}

/-- `COL` after a token, from the numbers (R25). -/
theorem State.colAfter_eq (s : State) (n : Nat) : s.colAfter n = BitVec.ofNat 11 (s.col.toNat + n) := by
  rw [State.colAfter, BitVec.ofNat_add, BitVec.ofNat_toNat, BitVec.setWidth_eq]

theorem State.append_colAfter (s : State) (bytes : List Byte) (n : Nat) :
    (s.append bytes).colAfter n = s.colAfter n := rfl

theorem State.afterFetch_colAfter (s : State) (n : Nat) : s.afterFetch.colAfter n = s.colAfter n := by
  rw [State.colAfter, State.colAfter, State.afterFetch_col]

theorem OutWritten.congr {s t u : State} {a : Nat} {bytes : List Byte} (h : OutWritten s t a bytes)
    (hout : u.out = t.out) : OutWritten s u a bytes := fun x => (State.outByte_congr hout x).trans (h x)

theorem State.afterFetch_append_written (s : State) (bytes : List Byte) :
    OutWritten s (s.afterFetch.append bytes) s.byteCount.toNat bytes := by
  intro x
  rw [State.append_written bytes x, State.outByte_congr s.afterFetch_out, State.afterFetch_byteCount]

/-- The header is written from the start of `OUT`, wherever the byte count stood (R131). -/
theorem State.append_written_from_zero (s : State) (bytes : List Byte) :
    OutWritten s (({ s with byteCount := 0 } : State).append bytes) 0 bytes := fun x =>
  Memory.read_writeAll _ 0 bytes s.out 0 x

/-- The selected body token with room in `OUT`: its bytes at `BYTECOUNT`, `COL` and `N` by its count, nothing else. -/
theorem exec_selectToken_completes (hp : s.phase = .body) (hr : s.row.toNat < 1080) (hc : s.col.toNat < 1920)
    (hi : selectToken s.px s.row.toNat s.col.toNat = i)
    (hfit : s.byteCount.toNat + (tokenBytes i).length ≤ Config.outCap) :
    ∃ t, exec i s = .next t ∧
      t = { s with
        out := t.out, byteCount := s.byteCount + BitVec.ofNat 32 (tokenBytes i).length,
        col := BitVec.ofNat 11 (s.col.toNat + pixelCount i), n := BitVec.ofNat 11 (pixelCount i) } ∧
      OutWritten s t s.byteCount.toNat (tokenBytes i) := by
  refine ⟨(s.append (tokenBytes i)).advance (pixelCount i), ?_, ?_, s.append_written _⟩
  · rw [exec_selectToken hp hr hc hi.symm, emitThen_of_fits hfit]
  · rw [← State.colAfter_eq]
    rfl

/-- The block's turn inside a row is the step of the selected token (R40, R136). -/
theorem step_selectToken (hb : s.blockTurn = true) (hp : s.phase = .body) (hr : s.row.toNat < Config.height)
    (hc : s.col.toNat < Config.width) (hi : selectToken s.px s.row.toNat s.col.toNat = i) :
    step s = emitThen (tokenBytes i) (fun t => t.advance (pixelCount i)) s.afterFetch := by
  rw [step_of_nextToken hb (hi ▸ State.nextToken_body hp hr hc)]
  apply exec_selectToken <;> simp only [State.afterFetch_phase, State.afterFetch_row, State.afterFetch_col,
    State.afterFetch_px, hp, hr, hc, hi]

/-! ## A row of two alternating pixels (R154) -/

/-- Every row alternates between two pixels. -/
def alternating (a b : Pixel) : Image := fun _ c => if c % 2 = 0 then a else b

theorem alternating_ne_next {a b : Pixel} (hab : a ≠ b) (r c : Nat) :
    alternating a b r c ≠ alternating a b r (c + 1) := by
  rcases Nat.mod_two_eq_zero_or_one c with h | h
  · rw [alternating, alternating, if_pos h, if_neg (by omega)]
    exact hab
  · rw [alternating, alternating, if_neg (by omega), if_pos (by omega)]
    exact hab.symm

theorem flatMap_pixelsFrom (F : Image) (r n : Nat) :
    (pixelsFrom F r 0 n).flatMap pixelBytes = (List.range n).flatMap fun c => pixelBytes (F r c) := by
  rw [pixelsFrom, List.flatMap_map]
  simp only [Nat.zero_add]

/-- No pixel of an alternating row 0 starts a repeat, so its token is one literal run. -/
theorem selectToken_of_alternating {F : Image} {a b : Pixel} (hab : a ≠ b)
    (h : ∀ c, c < 1920 → F 0 c = alternating a b 0 c) :
    selectToken F 0 0 = litsToken (pixelsFrom (alternating a b) 0 0 1920) := by
  have hpixels : pixelsFrom F 0 0 1920 = pixelsFrom (alternating a b) 0 0 1920 :=
    pixelsFrom_congr fun j hj => h (0 + j) (by omega)
  rw [← hpixels]
  refine selectToken_of_literals (by omega) (by omega) (fun k _ hk => ⟨.inl rfl, ?_⟩) (literal_eq_false (.inl rfl))
  by_cases hlast : k = 1919
  · exact .inl hlast
  · rw [h k (by omega), h (k + 1) (by omega)]
    exact .inr (alternating_ne_next hab 0 k)

/-- The bytes of a literal run of a whole row (R82, R86). -/
theorem tokenBytes_litsToken_row (F : Image) (r : Nat) :
    tokenBytes (litsToken (pixelsFrom F r 0 1920)) =
      [0x00, 0x80, 0x0F] ++ (List.range 1920).flatMap fun c => pixelBytes (F r c) := by
  have hcount : countBytes 1920 = [0x80, 0x0F] := by decide
  rw [tokenBytes_litsToken, length_pixelsFrom, hcount, flatMap_pixelsFrom]
  rfl

theorem length_tokenBytes_litsToken_row (F : Image) (r : Nat) :
    (tokenBytes (litsToken (pixelsFrom F r 0 1920))).length = 5763 := by
  rw [tokenBytes_litsToken, List.length_cons, List.length_append, length_payload, length_pixelsFrom, length_countBytes,
    if_neg (by omega)]

end Sys2Proof.Machine
end

section
/-! PROOFS. The statements about the encoder's steps. -/

namespace Sys2Proof.Machine

open Sys2Proof.Laws

/-- Settles O17: the header packs to its 48 constant bytes. -/
theorem headerStepCompletes : Obligations.HeaderStepCompletes := by
  intro s hp
  refine ⟨_, exec_hdr_header hp, ?_, ?_⟩
  · simp only [State.append, length_header]
    rfl
  · have hbytes := tokenBytes_hdr 0
    exact hbytes ▸ (s.append_written_from_zero _).congr rfl

/-- Settles O18: the selected token is the vertical repeat of `n`. -/
theorem verticalRepeatCompletes : Obligations.VerticalRepeatCompletes := by
  rintro s n r c hp rfl rfl hr0 hr h1 hn hmatch hstop hfit
  have hlen : (tokenBytes (vrepToken n)).length = (countBytes n).length + 2 := by rw [tokenBytes_vrepToken]; rfl
  have hstep := exec_selectToken_completes hp hr (by omega) (selectToken_of_vertical hr0 h1 hn hmatch hstop)
    (by rw [hlen]; exact hfit)
  rwa [hlen, pixelCount_vrepToken, tokenBytes_vrepToken, vrepToken_eq_ite] at hstep

/-- Settles O19: the selected token is the horizontal repeat of `n`. -/
theorem horizontalRepeatCompletes : Obligations.HorizontalRepeatCompletes := by
  rintro s n r c hp rfl rfl hr h2 hn hv hmatch hstop hfit
  have hlen : (tokenBytes (hrepToken n (s.px s.row.toNat s.col.toNat))).length = (countBytes n).length + 3 := by
    rw [tokenBytes_hrepToken, List.length_append]; rfl
  have hstep := exec_selectToken_completes hp hr (by omega) (selectToken_of_horizontal h2 hn hv hmatch hstop)
    (by rw [hlen]; exact hfit)
  rwa [hlen, pixelCount_hrepToken, tokenBytes_hrepToken, hrepToken_eq_ite h2] at hstep

/-- Settles O20: the selected token is the single pixel. -/
theorem singleLiteralCompletes : Obligations.SingleLiteralCompletes := by
  rintro s r c hp rfl rfl hr hc hv hh hnext hfit
  have hstop : literal s.px s.row.toNat (s.col.toNat + 1) = false :=
    literal_eq_false (hnext.imp_left (by omega))
  exact exec_selectToken_completes hp hr hc (selectToken_of_single hv hh hstop) hfit

/-- Settles O21: the selected token is the literal run of `n`. -/
theorem literalRunCompletes : Obligations.LiteralRunCompletes := by
  rintro s n r c ps hp rfl rfl hr h2 hn hps hlit hstop hfit
  have hpixels : pixelsFrom s.px s.row.toNat s.col.toNat n = ps := hps.symm
  have hcount : ps.length = n := hpixels ▸ length_pixelsFrom ..
  have hlen : (tokenBytes (litsToken ps)).length = 1 + (countBytes n).length + 3 * n := by
    rw [tokenBytes_litsToken, List.length_cons, List.length_append, length_payload, hcount]
    omega
  have hsel : selectToken s.px s.row.toNat s.col.toNat = litsToken ps :=
    hpixels ▸ selectToken_of_literals h2 hn hlit (literal_eq_false hstop)
  have hroom : s.byteCount.toNat + (tokenBytes (litsToken ps)).length ≤ Config.outCap := by
    rw [hlen, ← Nat.add_assoc, ← Nat.add_assoc]
    exact hfit
  have hstep := exec_selectToken_completes hp hr (by omega) hsel hroom
  rwa [hlen, pixelCount_litsToken, tokenBytes_litsToken, litsToken_eq_ite, hcount] at hstep

/-- Settles O22. -/
theorem endOfRowCompletes : Obligations.EndOfRowCompletes := by
  intro s hp hc hfit
  refine ⟨_, (exec_eol hp (by rw [hc]; rfl)).trans (emitThen_of_fits hfit), ?_, s.append_written _⟩
  rw [← hp]
  rfl

/-- Settles O23. -/
theorem endOfImageCompletes : Obligations.EndOfImageCompletes := by
  intro s hp hfit
  exact ⟨_, (exec_eoi hp).trans (emitThen_of_fits hfit), rfl, s.append_written _⟩

/-- Settles O24: the padding takes at most three bytes. -/
theorem paddingCompletes : Obligations.PaddingCompletes := by
  intro s hp hfit
  obtain ⟨h3, h4⟩ := padCount_aligns s.byteCount.toNat
  have hroom : s.byteCount.toNat + (List.replicate (padCount s.byteCount.toNat) (0x00 : Byte)).length ≤
      Config.outCap := by
    rw [List.length_replicate, Config.outCap]
    omega
  refine ⟨_, _, (exec_pad hp).trans (emitThen_of_fits hroom), h3, h4, ?_, s.append_written _⟩
  simp only [State.append, List.length_replicate]

/-- Settles O25: the four bytes written are those the length field is read from. -/
theorem patchCompletes : Obligations.PatchCompletes := fun s hp =>
  ⟨_, exec_hdr_patch hp, rfl, fun x => Memory.read_writeAll _ 0 (regBytes s.byteCount) s.out _ x,
    State.lengthField_of_patched rfl⟩

/-- Settles O27: the scan invariant gives the room, and the selected token covers at least one pixel of its row. -/
theorem bodyStepAdvances : Obligations.BodyStepAdvances := by
  intro s hp hs hc hb
  obtain ⟨t, ht⟩ := step_block_completes hs hb
  obtain ⟨_, h1, hn⟩ := selectToken_legal s.px s.row.toNat hc
  have hstep := step_selectToken hb hp (hs.row hp) hc rfl
  obtain ⟨_, rfl⟩ := emitThen_cases (hstep.symm.trans ht)
  refine ⟨_, ht, by simp [hp], by simp, ?_, ?_⟩
  · rw [State.advance_col, State.append_colAfter, State.afterFetch_colAfter, State.colAfter_toNat hn]
    exact Nat.lt_add_of_pos_right h1
  · rw [State.advance_col, State.append_colAfter, State.afterFetch_colAfter, State.colAfter_toNat hn]
    exact hn

/-- Settles O29: in an alternating row 0 no pixel starts a repeat. -/
theorem alternatingRowZeroIsOneLiteralRun : Obligations.AlternatingRowZeroIsOneLiteralRun := by
  intro s a b hab hp hrow hcol hb hfit halt
  have hrow0 : s.row.toNat = 0 := by rw [hrow]; rfl
  have hcol0 : s.col.toNat = 0 := by rw [hcol]; rfl
  have hsel : selectToken s.px s.row.toNat s.col.toNat = litsToken (pixelsFrom (alternating a b) 0 0 1920) := by
    rw [hrow0, hcol0]
    exact selectToken_of_alternating hab halt
  have hstep := step_selectToken hb hp (by simp [hrow0]) (by simp [hcol0]) hsel
  have hroom : s.afterFetch.byteCount.toNat +
      (tokenBytes (litsToken (pixelsFrom (alternating a b) 0 0 1920))).length ≤ Config.outCap := by
    rw [State.afterFetch_byteCount, length_tokenBytes_litsToken_row]
    exact hfit
  rw [emitThen_of_fits hroom] at hstep
  refine ⟨_, hstep, ?_, ?_, ?_, ?_⟩
  · rw [State.advance_phase, State.append_phase, State.afterFetch_phase, hp]
  · rw [State.advance_row, State.append_row, State.afterFetch_row, hrow]
  · rw [State.advance_col, State.append_colAfter, State.afterFetch_colAfter, State.colAfter_eq, hcol0,
      pixelCount_litsToken, length_pixelsFrom]
    rfl
  · have hbytes := tokenBytes_litsToken_row (alternating a b) 0
    unfold alternating at hbytes
    rw [← hbytes]
    exact (s.afterFetch_append_written _).congr (State.advance_out _ _)

end Sys2Proof.Machine
end

section
/-! SUPPORT. `OUT` after two writes, one behind the other or one inside the other. -/

namespace Sys2Proof.Machine

variable {s t u : State} {xs ys zs ws : List Byte}

/-- Bytes written behind bytes written before (R10). -/
theorem OutWritten.append {a : Nat} (h : OutWritten s t a xs) (h' : OutWritten t u (a + xs.length) ys) :
    OutWritten s u a (xs ++ ys) := by
  intro x
  rw [h' x, h x, List.length_append]
  by_cases hys : a + xs.length ≤ x ∧ x < a + xs.length + ys.length
  · rw [if_pos hys, if_pos (by omega), List.getD_append_right _ _ _ _ (by omega), Nat.sub_sub]
  · rw [if_neg hys]
    by_cases hxs : a ≤ x ∧ x < a + xs.length
    · rw [if_pos hxs, if_pos (by omega), List.getD_append _ _ _ _ (by omega)]
    · rw [if_neg hxs, if_neg (by omega)]

/-- Bytes written over as many bytes inside a written sequence (R146). -/
theorem OutWritten.overwrite (h : OutWritten s t 0 (xs ++ (ys ++ zs))) (h' : OutWritten t u xs.length ws)
    (hlen : ws.length = ys.length) : OutWritten s u 0 (xs ++ (ws ++ zs)) := by
  intro x
  rw [h' x, h x]
  simp only [List.length_append, hlen, Nat.zero_le, true_and, Nat.zero_add, Nat.sub_zero]
  rcases Nat.lt_or_ge x xs.length with hxs | hxs
  · rw [if_neg (by omega), List.getD_append _ _ _ _ hxs, List.getD_append _ _ _ _ hxs]
  · rw [List.getD_append_right _ _ _ _ hxs, List.getD_append_right _ _ _ _ hxs]
    rcases Nat.lt_or_ge x (xs.length + ys.length) with hys | hys
    · rw [if_pos ⟨hxs, hys⟩, if_pos (by omega), List.getD_append _ _ _ _ (by omega)]
    · rw [if_neg (by omega), List.getD_append_right _ _ _ _ (by omega), List.getD_append_right _ _ _ _ (by omega), hlen]

end Sys2Proof.Machine
end

section
/-! SUPPORT. A run of `ENCODE` without host moves: what every state of it has written and kept, step by step (R130 to
R147). -/

namespace Sys2Proof.Machine

open Sys2Proof.Laws

variable {s₀ s t u : State} {bytes new : List Byte} {r c : Nat}

/-- Steps of the machine lead from one state to another. -/
abbrev Reaches : State → State → Prop := Relation.ReflTransGen fun s t => step s = .next t

theorem run_succ_of_step {M : Host.Core} {s t : M.State} (h : M.step s = .next t) (k : Nat) :
    M.run (k + 1) s = M.run k t := by
  rw [Host.Core.run, h]

theorem Reaches.exists_run (h : Reaches s t) : ∃ k, Host.Core.run Sys2Proof.core k s = .next t := by
  induction h using Relation.ReflTransGen.head_induction_on with
  | refl => exact ⟨0, rfl⟩
  | head hstep _ ih =>
    obtain ⟨k, hk⟩ := ih
    exact ⟨k + 1, (run_succ_of_step (M := Sys2Proof.core) hstep k).trans hk⟩

/-- What no step of `ENCODE` before the last changes: the inputs, `STATUS` and the coming moves (R38). -/
structure KeepsInputs (s t : State) : Prop where
  plane   : t.plane = s.plane
  frame   : t.frame = s.frame
  nplanes : t.nplanes = s.nplanes
  status  : t.status = s.status
  turns   : t.turns = s.turns

theorem KeepsInputs.trans (h : KeepsInputs s t) (h' : KeepsInputs t u) : KeepsInputs s u where
  plane := h'.plane.trans h.plane
  frame := h'.frame.trans h.frame
  nplanes := h'.nplanes.trans h.nplanes
  status := h'.status.trans h.status
  turns := h'.turns.trans h.turns

theorem State.append_keepsInputs (s : State) (bytes : List Byte) : KeepsInputs s (s.append bytes) :=
  ⟨rfl, rfl, rfl, rfl, rfl⟩

/-- The rest of a step after its bytes leaves `OUT` and its byte count alone. -/
def MovesScan (after : State → State) : Prop :=
  ∀ t, KeepsInputs t (after t) ∧ (after t).out = t.out ∧ (after t).byteCount = t.byteCount

/-- A running `ENCODE` started in `s₀`, once its header stands: the bytes put into `OUT` so far, their number, and the
inputs as at the start. -/
structure Encoded (s₀ : State) (bytes : List Byte) (s : State) : Prop where
  written : OutWritten s₀ s 0 bytes
  count   : s.byteCount.toNat = bytes.length
  scan    : s.ScanInv
  kept    : KeepsInputs s₀ s

/-- With no move listed the block has the turn and nothing is taken (R233). -/
theorem State.blockTurn_of_turns_nil (h : s.turns = []) : s.blockTurn = true ∧ s.afterFetch = s := by
  simp [State.blockTurn, State.afterFetch, h]

/-- A step that emits bytes puts them behind those written before. -/
theorem Encoded.emit {after : State → State} (h : Encoded s₀ bytes s) (hturns : s₀.turns = []) {i : Instr}
    (hi : s.nextToken = some i) (he : exec i s = emitThen new after s) (hafter : MovesScan after) :
    step s = .next (after (s.append new)) ∧ Encoded s₀ (bytes ++ new) (after (s.append new)) := by
  obtain ⟨hb, hfetch⟩ := State.blockTurn_of_turns_nil (h.kept.turns.trans hturns)
  obtain ⟨hkept, hout, hcount⟩ := hafter (s.append new)
  obtain ⟨t, ht⟩ := step_block_completes h.scan hb
  have hstep := step_of_nextToken hb hi
  rw [hfetch, he] at hstep
  obtain ⟨hfit, rfl⟩ := emitThen_cases (hstep.symm.trans ht)
  have hnew : OutWritten s (after (s.append new)) (0 + bytes.length) new := by
    rw [Nat.zero_add, ← h.count]
    exact (s.append_written new).congr hout
  refine ⟨ht, h.written.append hnew, ?_, stepKeepsScanInv _ _ h.scan ht,
    h.kept.trans ((s.append_keepsInputs new).trans hkept)⟩
  rw [hcount, State.append_byteCount_toNat hfit, h.count, List.length_append]

/-! ## The body -/

/-- A running `ENCODE` in a phase, at a scan position. -/
structure ScanAt (s₀ : State) (p : Phase) (r c : Nat) (bytes : List Byte) (s : State) : Prop
    extends Encoded s₀ bytes s where
  phase : s.phase = p
  row   : s.row.toNat = r
  col   : s.col.toNat = c

/-- A body step, in terms of the image at the start (R136). -/
theorem ScanAt.step_token (h : ScanAt s₀ .body r c bytes s) (hturns : s₀.turns = []) (hc : c < Config.width) :
    ∃ t, step s = .next t ∧ ScanAt s₀ .body r (c + pixelCount (selectToken s₀.px r c))
      (bytes ++ tokenBytes (selectToken s₀.px r c)) t := by
  obtain ⟨henc, hp, rfl, rfl⟩ := h
  have hr := henc.scan.row hp
  obtain ⟨_, _, hn⟩ := selectToken_legal s.px s.row.toNat hc
  rw [← State.px_congr henc.kept.frame]
  obtain ⟨hstep, henc'⟩ := henc.emit hturns (State.nextToken_body hp hr hc) (exec_selectToken hp hr hc rfl)
    fun t => ⟨⟨rfl, rfl, rfl, rfl, rfl⟩, rfl, rfl⟩
  exact ⟨_, hstep, henc', hp, rfl, State.colAfter_toNat hn⟩

/-- The body steps of a row (R147). -/
theorem RowScan.run {is : List Instr} (hscan : RowScan s₀.px r c is) (hturns : s₀.turns = [])
    (h : ScanAt s₀ .body r c bytes s) :
    ∃ t, Reaches s t ∧ ScanAt s₀ .body r Config.width (bytes ++ is.flatMap tokenBytes) t := by
  induction hscan generalizing s bytes with
  | done => exact ⟨s, .refl, by simpa using h⟩
  | token hc _ ih =>
    obtain ⟨t, hstep, ht⟩ := h.step_token hturns hc
    obtain ⟨u, hreach, hu⟩ := ih ht
    exact ⟨u, .head hstep hreach, by rwa [List.flatMap_cons, ← List.append_assoc]⟩

/-- The phase in which row `r` begins: after the last row the body is over (R142). -/
def rowPhase (r : Nat) : Phase := if r = Config.height then .eoi else .body

theorem rowPhase_of_lt (h : r < Config.height) : rowPhase r = .body := if_neg (Nat.ne_of_lt h)

/-- The end-of-row step (R142). -/
theorem ScanAt.step_eol (h : ScanAt s₀ .body r Config.width bytes s) (hturns : s₀.turns = []) :
    ∃ t, step s = .next t ∧ ScanAt s₀ (rowPhase (r + 1)) (r + 1) 0 (bytes ++ tokenBytes .eol) t := by
  obtain ⟨henc, hp, rfl, hc⟩ := h
  have hr := henc.scan.row hp
  have hnext : (s.row + 1).toNat = s.row.toNat + 1 := by
    simp only [Config.height] at hr
    bv_omega
  have hlast : s.row + 1 = BitVec.ofNat 11 Config.height ↔ s.row.toNat + 1 = Config.height := by
    rw [← hnext, ← BitVec.toNat_inj]
    rfl
  have hi : s.nextToken = some .eol := by simp only [State.nextToken, hp, hc, if_true]
  obtain ⟨hstep, henc'⟩ := henc.emit hturns hi (exec_eol hp hc) fun t => ⟨⟨rfl, rfl, rfl, rfl, rfl⟩, rfl, rfl⟩
  refine ⟨_, hstep, henc', ?_, hnext, rfl⟩
  rw [endRow_phase, State.append_row, State.append_phase, hp, rowPhase]
  exact if_congr hlast rfl rfl

/-- A whole row (R147). -/
theorem ScanAt.run_row (h : ScanAt s₀ .body r 0 bytes s) (hturns : s₀.turns = []) :
    ∃ t, Reaches s t ∧ ScanAt s₀ (rowPhase (r + 1)) (r + 1) 0 (bytes ++ rowBytes s₀.px r) t := by
  obtain ⟨t, hreach, ht⟩ := (rowScan_tokensOfRow s₀.px r).run hturns h
  obtain ⟨u, hstep, hu⟩ := ht.step_eol hturns
  exact ⟨u, hreach.tail hstep, by rwa [rowBytes, ← List.append_assoc]⟩

/-- The rows before `r`, one after the other (R147). -/
theorem ScanAt.run_rows (h : ScanAt s₀ .body 0 0 bytes s) (hturns : s₀.turns = []) (hr : r ≤ Config.height) :
    ∃ t, Reaches s t ∧ ScanAt s₀ (rowPhase r) r 0 (bytes ++ (List.range r).flatMap (rowBytes s₀.px)) t := by
  induction r with
  | zero => exact ⟨s, .refl, by simpa [rowPhase] using h⟩
  | succ r ih =>
    obtain ⟨t, hreach, ht⟩ := ih (Nat.le_of_succ_le hr)
    rw [rowPhase_of_lt hr] at ht
    obtain ⟨u, hreach', hu⟩ := ht.run_row hturns
    refine ⟨u, hreach.trans hreach', ?_⟩
    rwa [List.range_succ, List.flatMap_append, List.flatMap_singleton, ← List.append_assoc]

/-! ## From the header to the padding -/

/-- The bytes that stand in `OUT` before the length is patched (R131, R147). -/
def unpatchedStream (F : Image) : List Byte :=
  tokenBytes (.hdr 0) ++ bodyBytes F ++ List.replicate (padCount (Config.headerLength + (bodyBytes F).length)) 0x00

theorem length_unpatchedStream (F : Image) : (unpatchedStream F).length = streamLength F := by
  rw [unpatchedStream, List.length_append, List.length_append, length_header, List.length_replicate]
  rfl

/-- What follows the length field in a stream (R80, R147). -/
def afterLengthField (F : Image) : List Byte :=
  headerConstants ++ (bodyBytes F ++
    List.replicate (padCount (Config.headerLength + (bodyBytes F).length)) 0x00)

/-- What stands before the length field in every stream (R80). -/
def beforeLengthField : List Byte := Config.signature ++ [0x80, 0x07, 0x38, 0x04]

theorem unpatchedStream_eq (F : Image) :
    unpatchedStream F = beforeLengthField ++ (regBytes 0 ++ afterLengthField F) := by
  simp only [unpatchedStream, tokenBytes_hdr, beforeLengthField, afterLengthField, List.append_assoc]

theorem encodeImage_eq (F : Image) :
    encodeImage F = beforeLengthField ++ (regBytes (BitVec.ofNat 32 (streamLength F)) ++ afterLengthField F) := by
  simp only [encodeImage, tokenBytes_hdr, beforeLengthField, afterLengthField, List.append_assoc]

/-- The header step starts the scan (R131). -/
theorem step_header (hp : s.phase = .header) (hturns : s.turns = []) :
    ∃ t, step s = .next t ∧ ScanAt s .body 0 0 (tokenBytes (.hdr 0)) t := by
  obtain ⟨hb, hfetch⟩ := State.blockTurn_of_turns_nil hturns
  have hi : s.nextToken = some (.hdr 0) := by simp only [State.nextToken, hp]
  have hstep := step_of_nextToken hb hi
  rw [hfetch, exec_hdr_header hp] at hstep
  have hlen := length_header 0
  generalize tokenBytes (.hdr 0) = bytes at hstep hlen ⊢
  refine ⟨_, hstep, ⟨?_, ?_, ?_, ⟨rfl, rfl, rfl, rfl, rfl⟩⟩, rfl, rfl, rfl⟩
  · exact (s.append_written_from_zero _).congr rfl
  · simp [hlen]
  · exact stepKeepsScanInv _ _ (.of_not_scanning (.inr (.inr (.inl hp)))) hstep

/-- The end-of-image step (R144). -/
theorem Encoded.step_eoi (h : Encoded s₀ bytes s) (hturns : s₀.turns = []) (hp : s.phase = .eoi) :
    ∃ t, step s = .next t ∧ t.phase = .pad ∧ Encoded s₀ (bytes ++ tokenBytes .eoi) t := by
  obtain ⟨hstep, h'⟩ := h.emit hturns (by simp only [State.nextToken, hp]) (exec_eoi hp)
    fun t => ⟨⟨rfl, rfl, rfl, rfl, rfl⟩, rfl, rfl⟩
  exact ⟨_, hstep, rfl, h'⟩

/-- The padding step (R145). -/
theorem Encoded.step_pad (h : Encoded s₀ bytes s) (hturns : s₀.turns = []) (hp : s.phase = .pad) :
    ∃ t, step s = .next t ∧ t.phase = .patch ∧
      Encoded s₀ (bytes ++ List.replicate (padCount bytes.length) 0x00) t := by
  have hexec := exec_pad hp
  rw [h.count] at hexec
  obtain ⟨hstep, h'⟩ := h.emit hturns (by simp only [State.nextToken, hp]) hexec
    fun t => ⟨⟨rfl, rfl, rfl, rfl, rfl⟩, rfl, rfl⟩
  exact ⟨_, hstep, rfl, h'⟩

/-- All steps of `ENCODE` but the last. -/
theorem run_to_patch (hp : s.phase = .header) (hturns : s.turns = []) :
    ∃ t, Reaches s t ∧ t.phase = .patch ∧ Encoded s (unpatchedStream s.px) t := by
  obtain ⟨t₁, hstep, h₁⟩ := step_header hp hturns
  obtain ⟨t₂, hrows, h₂⟩ := h₁.run_rows hturns (Nat.le_refl _)
  obtain ⟨t₃, heoi, hp₃, h₃⟩ := h₂.toEncoded.step_eoi hturns h₂.phase
  obtain ⟨t₄, hpad, hp₄, h₄⟩ := h₃.step_pad hturns hp₃
  have hheader : Reaches s t₁ := .single hstep
  refine ⟨t₄, ((hheader.trans hrows).tail heoi).tail hpad, hp₄, ?_⟩
  rwa [List.append_assoc (tokenBytes _), ← bodyBytes, List.length_append, length_header] at h₄

/-- The patch step turns the bytes written so far into the stream (R146). -/
theorem step_patch (h : Encoded s₀ (unpatchedStream s₀.px) s) (hturns : s₀.turns = []) (hp : s.phase = .patch) :
    ∃ u, step s = .next u ∧ u.phase = .idle ∧ u.status = { s₀.status with busy := false, outValid := true } ∧
      u.length = BitVec.ofNat 32 (streamLength s₀.px) ∧ OutWritten s₀ u 0 (encodeImage s₀.px) ∧
      u.plane = s₀.plane ∧ u.frame = s₀.frame ∧ u.nplanes = s₀.nplanes := by
  obtain ⟨hwritten, hcount, _, hplane, hframe, hnplanes, hstatus, hturns'⟩ := h
  obtain ⟨hb, hfetch⟩ := State.blockTurn_of_turns_nil (hturns'.trans hturns)
  have hlength : s.byteCount = BitVec.ofNat 32 (streamLength s₀.px) := by
    rw [← length_unpatchedStream, ← hcount, BitVec.ofNat_toNat, BitVec.setWidth_eq]
  have hi : s.nextToken = some (.hdr s.byteCount) := by simp only [State.nextToken, hp]
  have hstep := step_of_nextToken hb hi
  rw [hfetch, exec_hdr_patch hp] at hstep
  refine ⟨_, hstep, rfl, ?_, hlength, ?_, hplane, hframe, hnplanes⟩
  · rw [State.finishEncode_status, hstatus]
  · rw [unpatchedStream_eq] at hwritten
    rw [encodeImage_eq, ← hlength]
    exact hwritten.overwrite (fun x => Memory.read_writeAll _ 0 (regBytes s.byteCount) s.out 8 x) rfl

end Sys2Proof.Machine
end

section
/-! PROOFS. The whole of `ENCODE`. -/

namespace Sys2Proof.Machine

/-- Settles O33: the run follows the rows and the scan of each row, then the patch step overwrites the length. -/
theorem encodeRunsToItsFunction : Obligations.EncodeRunsToItsFunction := by
  intro s hp hbusy hturns
  obtain ⟨t, hreach, hpatch, ht⟩ := run_to_patch (s := s.startEncode) rfl hturns
  obtain ⟨u, hstep, hidle, hstatus, hlength, hwritten, hinputs⟩ := step_patch ht hturns hpatch
  obtain ⟨k, hk⟩ := Reaches.exists_run (hreach.tail hstep)
  refine ⟨_, hostWrite_when_free (by simp [hp]) hbusy, k, u, hk, hidle, ?_, hlength, hwritten, hinputs⟩
  rw [hstatus, ← hbusy]
  rfl

end Sys2Proof.Machine
end

section
/-! SUPPORT. Host transactions that meet no running operation: the gate of ownership lets an idle block's write
through, a store read answers its byte, and in `P_FAULT` only a reset does more than answer (R65, R186, R187). -/

namespace Sys2Proof.Machine

variable {s t : State}

/-! ## The gate and the fault entry -/

/-- An idle block accepts a host write (R186). -/
theorem hostWrite_when_idle (effect : State → State) (hp : s.phase = .idle) (hb : s.status.busy = false) :
    hostWrite effect s = .next (effect s) := hostWrite_when_free (by simp [hp]) hb

/-- A fault spoils a store only where an operation runs (R187). -/
theorem State.spoilTarget_of_not_busy (h : s.phase.isBusy = false) (f : FaultCause) : s.spoilTarget f = s := by
  have hencode : s.phase.isEncode = false := by cases hp : s.phase <;> simp_all [Phase.isBusy, Phase.isEncode]
  have hcompose : s.phase ≠ .compose := fun hp => by simp [hp, Phase.isBusy] at h
  simp [State.spoilTarget, hencode, hcompose]

/-! ## Locations -/

theorem planeInside_iff {p r c : Nat} : planeInside p r c = true ↔ p < 24 ∧ r < 1080 ∧ c < 1920 := by
  simp [planeInside, and_assoc]

theorem frameInside_iff {r c k : Nat} : frameInside r c k = true ↔ r < 1080 ∧ c < 1920 ∧ k < 3 := by
  simp [frameInside, and_assoc]

/-- A bit of `PLANE` after another or the same bit is written (R21). -/
theorem State.planeBit_write {p r c p' r' c' : Nat} {bit : Bool} (h : planeInside p r c = true)
    (h' : planeInside p' r' c' = true) :
    { s with plane := s.plane.write (planeIndex p r c) bit }.planeBit p' r' c' =
      if p' = p ∧ r' = r ∧ c' = c then bit else s.planeBit p' r' c' := by
  obtain ⟨_, hr, hc⟩ := planeInside_iff.mp h
  obtain ⟨_, hr', hc'⟩ := planeInside_iff.mp h'
  have hindex : planeIndex p' r' c' = planeIndex p r c ↔ p' = p ∧ r' = r ∧ c' = c :=
    ⟨planeIndex_inj hr' hc' hr hc, by rintro ⟨rfl, rfl, rfl⟩; rfl⟩
  simp only [State.planeBit, Memory.read_write, hindex]

/-- A byte of `FRAME` after another or the same byte is written (R22). -/
theorem State.frameByte_write {r c k r' c' k' : Nat} {byte : Byte} (h : frameInside r c k = true)
    (h' : frameInside r' c' k' = true) :
    { s with frame := s.frame.write (frameIndex r c k) byte }.frameByte r' c' k' =
      if r' = r ∧ c' = c ∧ k' = k then byte else s.frameByte r' c' k' := by
  obtain ⟨_, hc, hk⟩ := frameInside_iff.mp h
  obtain ⟨_, hc', hk'⟩ := frameInside_iff.mp h'
  have hindex : frameIndex r' c' k' = frameIndex r c k ↔ r' = r ∧ c' = c ∧ k' = k :=
    ⟨frameIndex_inj hc' hk' hc hk, by rintro ⟨rfl, rfl, rfl⟩; rfl⟩
  simp only [State.frameByte, Memory.read_write, hindex]

/-! ## Transactions while not busy -/

theorem hostTransact_writePlane_when_idle {p r c : Nat} {bit : Bool} (h : planeInside p r c = true)
    (hp : s.phase = .idle) (hb : s.status.busy = false) :
    hostTransact (.writePlane p r c bit) s =
      .next { s with plane := s.plane.write (planeIndex p r c) bit } :=
  (if_pos h).trans (hostWrite_when_idle _ hp hb)

theorem hostTransact_writeFrame_when_idle {r c k : Nat} {byte : Byte} (h : frameInside r c k = true)
    (hp : s.phase = .idle) (hb : s.status.busy = false) :
    hostTransact (.writeFrame r c k byte) s =
      .next { s with frame := s.frame.write (frameIndex r c k) byte } :=
  (if_pos h).trans (hostWrite_when_idle _ hp hb)

theorem hostReadByte_when_free (byte : Byte) (hb : s.status.busy = false) :
    hostReadByte byte s = .next { s with hostResult := some (byte.setWidth 32) } := if_neg (by simp [hb])

theorem hostTransact_readFrame_when_free {r c k : Nat} (h : frameInside r c k = true) (hb : s.status.busy = false) :
    hostTransact (.readFrame r c k) s = .next { s with hostResult := some ((s.frameByte r c k).setWidth 32) } :=
  (if_pos h).trans (hostReadByte_when_free _ hb)

theorem hostTransact_readOut_when_free {a : Nat} (h : a < Config.outCap) (hb : s.status.busy = false) :
    hostTransact (.readOut a) s = .next { s with hostResult := some ((s.outByte a).setWidth 32) } :=
  (if_pos h).trans (hostReadByte_when_free _ hb)

/-- While the block is not busy an offered read draws no free value (R65; log 4). -/
theorem hostTransact_of_read_when_free {m : HostMove} (hread : m.isRead = true) (h : m.isOffered = true)
    (hb : s.status.busy = false) : ∃ v, hostTransact m s = .next { s with hostResult := some v } := by
  cases m with
  | readFrame => exact ⟨_, hostTransact_readFrame_when_free h hb⟩
  | readOut => exact ⟨_, hostTransact_readOut_when_free (of_decide_eq_true h) hb⟩
  | readReg => exact hostReadReg_answers (of_decide_eq_true h) s
  | readPlane => cases h
  | writePlane | writeFrame | writeOut | writeReg | assertReset => cases hread

/-! ## `P_FAULT` -/

/-- In `P_FAULT` an offered write is ignored: by the gate of ownership, or because it is one of `STATUS` or `LENGTH`
(R186, R187). -/
theorem hostTransact_of_write_in_fault {m : HostMove} (h : m.isOffered = true) (hread : m.isRead = false)
    (hreset : m ≠ .assertReset) (hp : s.phase = .fault) : hostTransact m s = .next s := by
  cases howned : m.isOwnedWrite with
  | true =>
    obtain ⟨effect, heffect⟩ := hostTransact_of_ownedWrite howned h
    rw [heffect, hostWrite_in_fault hp]
  | false =>
    cases m with
    | writeReg number v =>
      match number, h, howned with
      | 2, _, _ | 3, _, _ => rfl
    | writePlane | writeFrame => cases howned
    | readPlane | readFrame | readOut | readReg => cases hread
    | writeOut => cases h
    | assertReset => exact absurd rfl hreset

/-- In `P_FAULT` every transaction but a reset changes at most the returned value (R187, R207). -/
theorem hostTransact_in_fault {m : HostMove} (hreset : m ≠ .assertReset) (hp : s.phase = .fault)
    (hb : s.status.busy = false) (h : hostTransact m s = .next t) : t = { s with hostResult := t.hostResult } := by
  cases hoffered : m.isOffered with
  | false =>
    obtain ⟨r, hrefused⟩ := hostTransact_of_not_offered hoffered s
    rw [hrefused] at h
    cases h
  | true =>
    cases hread : m.isRead with
    | true =>
      obtain ⟨v, hanswer⟩ := hostTransact_of_read_when_free hread hoffered hb
      rw [hanswer] at h
      cases h
      rfl
    | false =>
      rw [hostTransact_of_write_in_fault hoffered hread hreset hp] at h
      cases h
      rfl

end Sys2Proof.Machine
end

section
/-! PROOFS. The statements about the commands, the host's access to an idle block and the block after a fault. -/

namespace Sys2Proof.Machine

/-- Settles O37: the block's turn rests, and of the host's transactions only the reset does more than answer. -/
theorem onlyResetLeavesFault : Obligations.OnlyResetLeavesFault := by
  intro s t hp hb h
  cases hturn : s.blockTurn with
  | true =>
    rw [idleBlockRests s hturn (.inr hp)] at h
    cases h
    exact .inr rfl
  | false =>
    obtain ⟨m, rest, hm⟩ := State.turns_of_not_blockTurn hturn
    by_cases hreset : m = .assertReset
    · exact .inl ⟨rest, hreset ▸ hm⟩
    · rw [step_host hm] at h
      rw [hm, List.tail_cons]
      exact .inr (hostTransact_in_fault (s := { s with turns := rest, hostResult := none }) hreset hp hb h)

/-- Settles O39: the idle block accepts the write, and locations of `PLANE` have indices of their own. -/
theorem hostWritesPlane : Obligations.HostWritesPlane := by
  intro s p r c bit rest hp hb hm hplane hrow hcol
  have hin := planeInside_iff.mpr ⟨hplane, hrow, hcol⟩
  exact ⟨_, (step_host hm).trans (hostTransact_writePlane_when_idle hin hp hb), rfl, fun p' r' c' hp' hr' hc' =>
    State.planeBit_write hin (planeInside_iff.mpr ⟨hp', hr', hc'⟩)⟩

/-- Settles O40: the idle block accepts the write, and locations of `FRAME` have indices of their own. -/
theorem hostWritesFrame : Obligations.HostWritesFrame := by
  intro s r c k byte rest hp hb hm hrow hcol hchannel
  have hin := frameInside_iff.mpr ⟨hrow, hcol, hchannel⟩
  exact ⟨_, (step_host hm).trans (hostTransact_writeFrame_when_idle hin hp hb), rfl, fun r' c' k' hr' hc' hk' =>
    State.frameByte_write hin (frameInside_iff.mpr ⟨hr', hc', hk'⟩)⟩

/-- Settles O7. -/
theorem nopChangesNothing : Obligations.NopChangesNothing := fun _ hp hb => hostWrite_when_idle (fun t => t) hp hb

/-- Settles O8. -/
theorem encodeCommandStarts : Obligations.EncodeCommandStarts := fun _ hp hb =>
  hostWrite_when_idle State.startEncode hp hb

/-- Settles O9: the gate accepts the command, and the fault it raises finds no operation whose target to spoil. -/
theorem reservedCommandIsIllegal : Obligations.ReservedCommandIsIllegal := by
  intro s v hv hp hb
  have hstores : s.spoilTarget (.illegalCommand v) = s := State.spoilTarget_of_not_busy (by rw [hp]; rfl) _
  rw [exec, execReserved, if_pos hv, hostWrite_when_idle _ hp hb, State.takeFault, hstores]
  rfl

/-- Settles O10: a command is a write behind the gate of ownership, whatever its value. -/
theorem commandsIgnoredAfterFault : Obligations.CommandsIgnoredAfterFault := by
  intro s v hp
  rw [exec_decodeCommand]
  exact hostTransact_of_write_in_fault rfl rfl nofun hp

/-- Settles O12. -/
theorem composeCommandStarts : Obligations.ComposeCommandStarts := fun _ hp hb =>
  hostWrite_when_idle State.startCompose hp hb

/-- Settles O43: by cases on the transaction. -/
theorem hostWritesIgnoredAfterFault : Obligations.HostWritesIgnoredAfterFault := by
  intro s m rest hm hoffered hread hreset hp
  rw [step_host hm]
  exact hostTransact_of_write_in_fault hoffered hread hreset hp

/-- Settles O46: a read while not busy answers the byte at its location. -/
theorem hostReadsStores : Obligations.HostReadsStores := by
  intro s rest hb
  refine ⟨fun r c k hm hr hc hk => ?_, fun a hm ha => ?_⟩
  · rw [step_host hm]
    exact hostTransact_readFrame_when_free (frameInside_iff.mpr ⟨hr, hc, hk⟩) hb
  · rw [step_host hm]
    exact hostTransact_readOut_when_free ha hb

/-- Settles O51: the step is the transaction, and the write of `CMD` is the meaning of the decoded command. -/
theorem stepRunsTheWrittenCommand : Obligations.StepRunsTheWrittenCommand := by
  intro s v rest hm
  rw [step_host hm, exec_decodeCommand]

end Sys2Proof.Machine
end

section
/-! SUPPORT. The ways into `P_FAULT`: of the block's own steps the compose step alone enters it, of the host's
transactions a write while busy and a reserved command (R200, R202, R206). -/

namespace Sys2Proof.Machine

variable {s t : State}

/-- `OUT` keeps its bytes in a fault outside `ENCODE`, `FRAME` in every fault but a `BusyViolation` that meets
`P_COMPOSE` (R187). -/
theorem State.takeFault_keeps_stores (s : State) (f : FaultCause) :
    (¬(s.phase = .compose ∧ f = .busyViolation) → (s.takeFault f).frame = s.frame) ∧
      (s.phase.isEncode = false → (s.takeFault f).out = s.out) := by
  refine ⟨fun hviolation => ?_, fun hencode => ?_⟩
  · rw [State.takeFault_frame, if_neg hviolation]
  · rw [State.takeFault_out, if_neg (Bool.eq_false_iff.mp hencode)]

/-! ## The block -/

/-- The end-of-row step raises no fault (R142). -/
theorem endRow_phase_ne_fault (hp : s.phase = .body) : (endRow s).phase ≠ .fault := by
  intro hf
  have hencode := endRow_isEncode (s := s) (by rw [hp]; rfl)
  rw [hf] at hencode
  cases hencode

/-- The block's own steps raise a fault in `P_COMPOSE` only: the encoder's guards never fire (R115, R202). -/
theorem BlockEffect.phase_compose_of_fault (h : BlockEffect s t) (hp : s.phase ≠ .fault) (ht : t.phase = .fault) :
    s.phase = .compose := by
  cases h with
  | compose _ hcompose | tooManyPlanes hcompose => exact hcompose
  | rest | pixels => exact absurd ht hp
  | endOfRow _ hbody => exact absurd ht (endRow_phase_ne_fault hbody)
  | header | endOfImage | padding | patch => cases ht

/-- A compose step that enters `P_FAULT` met too many planes (R121). -/
theorem composeStep_enters_fault (h : composeStep s = .next t) (ht : t.phase = .fault) :
    24 < s.nplanes.toNat ∧ t.status.faultCode = 1 := by
  rcases composeStep_cases h with ⟨hn, rfl⟩ | ⟨_, rfl⟩
  · exact ⟨hn, rfl⟩
  · cases ht

/-- The block's turn enters `P_FAULT` by the compose step with too many planes alone (R121, R202). -/
theorem step_block_enters_fault (hb : s.blockTurn = true) (hp : s.phase ≠ .fault) (h : step s = .next t)
    (ht : t.phase = .fault) : s.phase = .compose ∧ 24 < s.nplanes.toNat ∧ t.status.faultCode = 1 := by
  have hcompose : s.phase = .compose := by
    simpa using (BlockEffect.of_step hb h).phase_compose_of_fault (by simpa using hp) ht
  rw [step_of_compose hb hcompose] at h
  simpa using And.intro hcompose (composeStep_enters_fault h ht)

/-! ## The host -/

/-- A host write whose effect raises no fault enters `P_FAULT` while busy only (R65, R204). -/
theorem hostWrite_enters_fault {effect : State → State} (h : hostWrite effect s = .next t) (hp : s.phase ≠ .fault)
    (ht : t.phase = .fault) (heffect : (effect s).phase = s.phase) :
    s.status.busy = true ∧ t.status.faultCode = 5 := by
  rcases hostWrite_cases h with ⟨hf, _⟩ | ⟨_, hb, rfl⟩ | ⟨_, _, rfl⟩
  · exact absurd hf hp
  · exact ⟨hb, rfl⟩
  · exact absurd (heffect ▸ ht) hp

/-- An accepted command enters `P_FAULT` where its value is reserved (R184, R203). -/
theorem State.command_enters_fault {v : Reg} (hp : s.phase ≠ .fault) (ht : (s.command v).phase = .fault) :
    3 ≤ v.toNat ∧ (s.command v).status.faultCode = 4 := by
  unfold State.command at ht ⊢
  by_cases h0 : v = 0
  · exact absurd (by rwa [if_pos h0] at ht) hp
  by_cases h1 : v = 1
  · rw [if_neg h0, if_pos h1] at ht; cases ht
  by_cases h2 : v = 2
  · rw [if_neg h0, if_neg h1, if_pos h2] at ht; cases ht
  rw [if_neg h0, if_neg h1, if_neg h2]
  exact ⟨by bv_omega, rfl⟩

/-- A write of `CMD` that enters `P_FAULT` is a reserved command, or any command while busy (R180, R184, R204). -/
theorem hostWrite_command_enters_fault {v : Reg} (h : hostWrite (fun u => u.command v) s = .next t)
    (hp : s.phase ≠ .fault) (ht : t.phase = .fault) :
    (3 ≤ v.toNat ∧ s.status.busy = false ∧ t.status.faultCode = 4) ∨
      (s.status.busy = true ∧ t.status.faultCode = 5) := by
  rcases hostWrite_cases h with ⟨hf, _⟩ | ⟨_, hb, rfl⟩ | ⟨_, hb, rfl⟩
  · exact absurd hf hp
  · exact .inr ⟨hb, rfl⟩
  · obtain ⟨hv, hcode⟩ := State.command_enters_fault hp ht
    exact .inl ⟨hv, hb, hcode⟩

/-- Only a write of `CMD`, `NPLANES`, `PLANE` or `FRAME` raises a fault: reads answer, `STATUS` and `LENGTH` ignore a
write, and a reset leads to `P_IDLE` (R29, R30, R61, R220). -/
theorem hostTransact_phase_ne_fault {m : HostMove} (howned : m.isOwnedWrite = false)
    (h : hostTransact m s = .next t) (hp : s.phase ≠ .fault) : t.phase ≠ .fault := by
  cases hoffered : m.isOffered with
  | false =>
    obtain ⟨r, hrefused⟩ := hostTransact_of_not_offered hoffered s
    rw [hrefused] at h
    cases h
  | true =>
    cases m with
    | writePlane | writeFrame => cases howned
    | readPlane | writeOut => cases hoffered
    | readFrame | readOut | readReg =>
      obtain ⟨v, draw, hanswer⟩ := hostTransact_of_read rfl hoffered s
      rw [hanswer] at h
      cases h
      exact hp
    | writeReg number v =>
      match number, hoffered, howned with
      | 2, _, _ | 3, _, _ =>
        cases h
        exact hp
    | assertReset =>
      cases h
      nofun

/-- A transaction that enters `P_FAULT` is a reserved command while not busy, or one of the owned writes while busy
(R184, R203, R204). -/
theorem hostTransact_enters_fault {m : HostMove} (h : hostTransact m s = .next t) (hp : s.phase ≠ .fault)
    (ht : t.phase = .fault) :
    (∃ v, m = .writeReg 0 v ∧ 3 ≤ v.toNat ∧ s.status.busy = false ∧ t.status.faultCode = 4) ∨
      (m.isOwnedWrite = true ∧ s.status.busy = true ∧ t.status.faultCode = 5) := by
  cases howned : m.isOwnedWrite with
  | false => exact absurd ht (hostTransact_phase_ne_fault howned h hp)
  | true =>
    cases m with
    | writePlane | writeFrame =>
      simp only [hostTransact] at h
      split at h
      · exact .inr ⟨rfl, hostWrite_enters_fault h hp ht rfl⟩
      · cases h
    | writeReg number v =>
      match number, howned with
      | 0, _ => exact (hostWrite_command_enters_fault h hp ht).imp (fun hv => ⟨v, rfl, hv⟩) fun hbusy => ⟨rfl, hbusy⟩
      | 1, _ => exact .inr ⟨rfl, hostWrite_enters_fault (effect := fun u => { u with nplanes := v }) h hp ht rfl⟩
    | readPlane | readFrame | writeOut | readOut | readReg | assertReset => cases howned

end Sys2Proof.Machine
end

section
/-! PROOFS. The statements about the faults. -/

namespace Sys2Proof.Machine

/-- Settles O36. -/
theorem faultEntryLeaves : Obligations.FaultEntryLeaves := fun s f => ⟨s.takeFault_eq f, s.takeFault_keeps_stores f⟩

/-- Settles O38: the block's turn can only meet too many planes, a host move only the gate of ownership or a reserved
command. The scan invariant is not needed: a token whose step completes is a selected one, and those fit their row. -/
theorem whichFaultsOccur : Obligations.WhichFaultsOccur := by
  intro s t _ hp h ht
  cases hb : s.blockTurn with
  | true =>
    obtain ⟨hcompose, hn, hcode⟩ := step_block_enters_fault hb hp h ht
    exact .inl ⟨hcompose, rfl, hn, hcode⟩
  | false =>
    obtain ⟨m, rest, hm⟩ := State.turns_of_not_blockTurn hb
    rw [step_host hm] at h
    rcases hostTransact_enters_fault h hp ht with ⟨v, rfl, hv⟩ | hbusy
    · exact .inr (.inl ⟨v, rest, hm, hv⟩)
    · exact .inr (.inr ⟨m, rest, hm, hbusy⟩)

end Sys2Proof.Machine
end

section
/-! SUPPORT. How many steps a running `ENCODE` still takes: a lower and an upper bound read off the phase and the scan
position (R232), and what each step does to the two. -/

namespace Sys2Proof.Machine

variable {s t : State}

/-- The fewest steps left to completion: two for each row still to begin, the end-of-row step alone for a row already
begun, and one each for end of image, padding and patch (R232). -/
def State.stepsLeast (s : State) : Nat :=
  match s.phase with
  | .header => 4 + 2 * Config.height
  | .body => 2 * (Config.height - s.row.toNat) - min s.col.toNat 1 + 3
  | .eoi => 3
  | .pad => 2
  | .patch => 1
  | .idle => 0
  | .compose => 0
  | .fault => 0

/-- The most steps left to completion: one for each pixel still to cover and for each end of a row, and the same
further steps (R232). -/
def State.stepsMost (s : State) : Nat :=
  match s.phase with
  | .header => 4 + (Config.width + 1) * Config.height
  | .body => (Config.width + 1) * (Config.height - s.row.toNat) - s.col.toNat + 3
  | .eoi => 3
  | .pad => 2
  | .patch => 1
  | .idle => 0
  | .compose => 0
  | .fault => 0

theorem State.stepsLeft_of_body {r c : Nat} (hp : s.phase = .body) (hr : s.row.toNat = r) (hc : s.col.toNat = c) :
    s.stepsLeast = 2 * (1080 - r) - min c 1 + 3 ∧ s.stepsMost = 1921 * (1080 - r) - c + 3 := by
  simp only [State.stepsLeast, State.stepsMost, hp, hr, hc, and_self]

theorem State.stepsLeft_of_eoi (hp : s.phase = .eoi) : s.stepsLeast = 3 ∧ s.stepsMost = 3 := by
  simp only [State.stepsLeast, State.stepsMost, hp, and_self]

/-- `ENCODE` has completed (R146). -/
def State.Completed (s : State) : Prop := s.phase = .idle ∧ s.status.outValid = true

/-- A step of `ENCODE`: it runs on or completes, and the bounds on the steps left allow for exactly this step. -/
structure Advances (s t : State) : Prop where
  turns : t.turns = s.turns
  runs  : t.phase.isEncode = true ∨ t.Completed
  least : s.stepsLeast ≤ t.stepsLeast + 1
  most  : t.stepsMost + 1 ≤ s.stepsMost

/-- A body token covers at least one pixel and stays in its row (R148, R150). -/
theorem Advances.of_token {n : Nat} {bytes : List Byte} (hp : s.phase = .body) (hr : s.row.toNat < Config.height)
    (h1 : 1 ≤ n) (hn : s.col.toNat + n ≤ Config.width) : Advances s ((s.append bytes).advance n) := by
  obtain ⟨hleast, hmost⟩ := State.stepsLeft_of_body hp rfl rfl
  obtain ⟨hleast', hmost'⟩ :=
    State.stepsLeft_of_body (s := (s.append bytes).advance n) hp rfl (State.colAfter_toNat (s := s) hn)
  rw [State.advance_row, State.append_row] at hleast' hmost'
  simp only [Config.height, Config.width] at hr hn
  refine ⟨rfl, .inl ?_, by omega, by omega⟩
  rw [State.advance_phase, State.append_phase, hp, Phase.isEncode]

/-- The end-of-row step begins the next row, or ends the body after the last one (R142). -/
theorem Advances.of_endRow {bytes : List Byte} (hp : s.phase = .body) (hr : s.row.toNat < Config.height)
    (hc : s.col.toNat = Config.width) : Advances s (endRow (s.append bytes)) := by
  simp only [Config.height, Config.width] at hr hc
  obtain ⟨hleast, hmost⟩ := State.stepsLeft_of_body hp rfl hc
  have hnext : (s.row + 1).toNat = s.row.toNat + 1 := by bv_omega
  by_cases hlast : s.row + 1 = BitVec.ofNat 11 Config.height
  · have h1080 : s.row.toNat + 1 = 1080 := by rw [← hnext, hlast]; rfl
    have hp' : (endRow (s.append bytes)).phase = .eoi := if_pos hlast
    obtain ⟨hleast', hmost'⟩ := State.stepsLeft_of_eoi hp'
    exact ⟨rfl, .inl (by rw [hp', Phase.isEncode]), by omega, by omega⟩
  · have hp' : (endRow (s.append bytes)).phase = .body := (if_neg hlast).trans hp
    obtain ⟨hleast', hmost'⟩ := State.stepsLeft_of_body (c := 0) hp' hnext rfl
    exact ⟨rfl, .inl (by rw [hp', Phase.isEncode]), by omega, by omega⟩

/-- The enabled step of a scan inside the image, token by token (R131 to R146). -/
theorem Advances.of_exec {i : Instr} (hs : s.ScanInv) (hi : s.nextToken = some i) (h : exec i s = .next t) :
    Advances s t := by
  rcases State.nextToken_cases hi with ⟨hp, rfl⟩ | ⟨hp, hr, hc, hsel⟩ | ⟨hp, hc, rfl⟩ | ⟨hp, rfl⟩ | ⟨hp, rfl⟩ |
    ⟨hp, rfl⟩
  · rw [exec_hdr_header hp] at h
    generalize tokenBytes (.hdr 0) = bytes at h
    cases h
    exact ⟨rfl, .inl rfl, by simp [State.stepsLeast, hp], by simp [State.stepsMost, hp]⟩
  · rw [exec_selectToken hp hr hc hsel] at h
    obtain ⟨_, rfl⟩ := emitThen_cases h
    obtain ⟨_, h1, hn⟩ := selectToken_legal s.px s.row.toNat hc
    exact .of_token hp hr (hsel ▸ h1) (hsel ▸ hn)
  · rw [exec_eol hp hc] at h
    obtain ⟨_, rfl⟩ := emitThen_cases h
    exact .of_endRow hp (hs.row hp) hc
  · rw [exec_eoi hp] at h
    obtain ⟨_, rfl⟩ := emitThen_cases h
    exact ⟨rfl, .inl rfl, by simp [State.stepsLeast, hp], by simp [State.stepsMost, hp]⟩
  · rw [exec_pad hp] at h
    obtain ⟨_, rfl⟩ := emitThen_cases h
    exact ⟨rfl, .inl rfl, by simp [State.stepsLeast, hp], by simp [State.stepsMost, hp]⟩
  · rw [exec_hdr_patch hp] at h
    cases h
    exact ⟨rfl, .inr ⟨rfl, rfl⟩, by simp [State.stepsLeast, hp], by simp [State.stepsMost, hp]⟩

/-- With no host move to come, a running `ENCODE` advances (R41). -/
theorem step_advances (hs : s.ScanInv) (hturns : s.turns = []) (hp : s.phase.isEncode = true) :
    ∃ t, step s = .next t ∧ Advances s t := by
  obtain ⟨hb, hfetch⟩ := State.blockTurn_of_turns_nil hturns
  obtain ⟨i, hi⟩ := hs.nextToken_isSome hp
  obtain ⟨t, ht⟩ := exec_nextToken_completes hs hi
  exact ⟨t, by rw [step_of_nextToken hb hi, hfetch, ht], .of_exec hs hi ht⟩

/-! ## The run to completion -/

/-- After exactly `k` steps `ENCODE` has completed, and it is running in every state before. -/
def CompletesIn (s : State) (k : Nat) : Prop :=
  (∃ u, Host.Core.run Sys2Proof.core k s = .next u ∧ u.Completed) ∧
    ∀ j, j < k → ∃ v : State, Host.Core.run Sys2Proof.core j s = .next v ∧ v.phase.isEncode = true

theorem State.Completed.stepsLeast_eq_zero (h : s.Completed) : s.stepsLeast = 0 := by
  obtain ⟨hidle, _⟩ := h
  rw [State.stepsLeast, hidle]

theorem State.Completed.completesIn_zero (h : s.Completed) : CompletesIn s 0 :=
  ⟨⟨s, rfl, h⟩, fun _ hj => absurd hj (Nat.not_lt_zero _)⟩

theorem CompletesIn.of_step {k : Nat} (h : CompletesIn t k) (hstep : step s = .next t)
    (hp : s.phase.isEncode = true) : CompletesIn s (k + 1) := by
  have hrun := run_succ_of_step (M := Sys2Proof.core) hstep
  obtain ⟨⟨u, hu, hdone⟩, hbefore⟩ := h
  refine ⟨⟨u, (hrun k).trans hu, hdone⟩, fun j hj => ?_⟩
  cases j with
  | zero => exact ⟨s, rfl, hp⟩
  | succ j =>
    obtain ⟨v, hv, hrunning⟩ := hbefore j (Nat.lt_of_succ_lt_succ hj)
    exact ⟨v, (hrun j).trans hv, hrunning⟩

/-- From a running or completed `ENCODE` the number of steps to completion is within the bounds (R41, R232). -/
theorem completesIn_of_runs (hs : s.ScanInv) (hturns : s.turns = []) (hruns : s.phase.isEncode = true ∨ s.Completed) :
    ∃ k, s.stepsLeast ≤ k ∧ k ≤ s.stepsMost ∧ CompletesIn s k := by
  induction hm : s.stepsMost using Nat.strong_induction_on generalizing s with
  | _ m ih =>
    subst hm
    rcases hruns with hp | hdone
    · obtain ⟨t, hstep, hadv⟩ := step_advances hs hturns hp
      obtain ⟨k, hleast, hmost, hk⟩ :=
        ih t.stepsMost hadv.most (stepKeepsScanInv s t hs hstep) (hadv.turns.trans hturns) hadv.runs rfl
      exact ⟨k + 1, hadv.least.trans (Nat.succ_le_succ hleast), (Nat.succ_le_succ hmost).trans hadv.most,
        hk.of_step hstep hp⟩
    · exact ⟨0, hdone.stepsLeast_eq_zero.le, Nat.zero_le _, hdone.completesIn_zero⟩

end Sys2Proof.Machine
end

section
/-! PROOFS. The steps `ENCODE` takes, and reset. -/

namespace Sys2Proof.Machine

/-- Settles O34: every step lowers the upper bound on the steps left by at least one, the lower bound by at most one,
and in `P_HEADER` the two are the bounds of R232. -/
theorem encodeTerminatesInBoundedSteps : Obligations.EncodeTerminatesInBoundedSteps := by
  intro s hp hturns
  obtain ⟨k, hleast, hmost, ⟨u, hu, hidle, hvalid⟩, hbefore⟩ :=
    completesIn_of_runs (.of_not_scanning (.inr (.inr (.inl hp)))) hturns (.inl (by rw [hp, Phase.isEncode]))
  simp only [State.stepsLeast, State.stepsMost, hp] at hleast hmost
  exact ⟨k, u, hleast, hmost, hu, hidle, hvalid, hbefore⟩

/-- Settles O49: a reset is one of the transactions, answered in every phase. -/
theorem resetRestoresRegisters : Obligations.ResetRestoresRegisters := fun _ _ h => ⟨_, step_host h, rfl⟩

end Sys2Proof.Machine
end
